-- ==== Sys2Proof/Word.lean ====
section
/-! DEFINITION. The word types of the machine (00_scope.md R9 to R11): everything is unsigned. -/

namespace Sys2Proof

/-- A memory byte, a general register, a timer (10_state.md R31, R44, R45, R49). -/
abbrev Byte := BitVec 8

/-- A 16-bit instruction word, and the width of PC, I and the stack entries (10_state.md R37, R42, R43). -/
abbrev Word := BitVec 16

/-- A 4-bit field: a register index, a sprite height, a key index (30_encoding.md R92, 10_state.md R31). -/
abbrev Nibble := BitVec 4

/-- The 12-bit address immediate NNN (30_encoding.md R92, R94). -/
abbrev Addr12 := BitVec 12

end Sys2Proof
end

