-- ==== Sys2Proof/Config.lean ====
section
/-! DEFINITION. What an implementation fixes (the parameters of 00_scope.md R7) and the free values
(the draws of a step's inputs). The values this hardware gives the parameters stand in Machine/Params.lean. -/

namespace Sys2Proof

/-- `VF_DEST_ORDER`: what VF keeps when a flag-writing instruction names VF as its destination (41_alu.md R161). -/
inductive VfDestOrder where
  | flagLast
  | resultLast
  deriving DecidableEq, Repr

/-- `SHIFT_SOURCE`: which register 8XY6 and 8XYE shift (41_alu.md R171, R173). -/
inductive ShiftSource where
  | x
  | y
  deriving DecidableEq, Repr

/-- `DRW_ZERO_HEIGHT`: what DXY0 draws (42_address_and_display.md R205). -/
inductive DrwZeroHeight where
  | blank
  | rows16
  deriving DecidableEq, Repr

/-- The named parameters of 00_scope.md R7 whose value is a decision or general knowledge. -/
structure Config where
  /-- `STACK_CAPACITY`: `none` is the unbounded stack (60_exceptions.md R286). -/
  stackCapacity : Option Nat
  /-- `FONT`: the 80 glyph bytes (10_state.md R47). -/
  font : List Byte
  /-- `REG_RESET`: V0 to VF and I at reset (10_state.md R36, R42). -/
  regReset : Byte
  /-- `MEM_FILL`: a memory byte at reset that neither the font nor the ROM covers (20_memory.md R70). -/
  memFill : Byte
  vfDestOrder : VfDestOrder
  shiftSource : ShiftSource
  drwZeroHeight : DrwZeroHeight
  /-- `FONT_ADDR_MASK`: whether FX29 masks V[X] (43_keys_timers_memory.md R240). -/
  fontAddrMask : Bool
  /-- `STRICT_DECODE`: whether fixed bits below the high nibble are compared (30_encoding.md R106). -/
  strictDecode : Bool
  /-- `SYS_DIAGNOSED`: whether a `Sys` word emits the diagnostic (30_encoding.md R111). -/
  sysDiagnosed : Bool
  deriving DecidableEq, Repr

/-- The inputs of ONE step (00_scope.md R17, 60_exceptions.md R300): constant while the step runs. -/
structure StepInput where
  /-- Port `key_down`: bit k is 1 when key k is down (60_exceptions.md R301). -/
  keyDown : BitVec 16
  /-- The keyboard's choice among the keys that are down (43_keys_timers_memory.md R235, log 20). -/
  keyPick : Nibble
  /-- Port `rand_byte` (60_exceptions.md R305). -/
  randByte : Byte
  deriving DecidableEq, Repr

/-- FREE VALUE (log 1): `key_down` during a step for which the host has lined up no input. -/
opaque Config.freeKeyDown : Nat → BitVec 16

/-- FREE VALUE (log 1, 20): the keyboard's choice during such a step. -/
opaque Config.freeKeyPick : Nat → Nibble

/-- FREE VALUE (log 1, 22): the random byte of such a step, under no law (60_exceptions.md R305). -/
opaque Config.freeRandByte : Nat → Byte

end Sys2Proof
end

