-- ==== Sys2Proof/Machine/Params.lean ====
section
/-! DEFINITION. The values this hardware gives the parameters of 00_scope.md R7. They stand here, and
not in Config.lean, so that a test that shows one wrong can be answered in one place. -/

namespace Sys2Proof.Machine

/-- `MEM_SIZE`. -/
def memSize : Nat := 4096

/-- `PROGRAM_BASE`: the reset PC and the ROM's load address. -/
def programBase : Nat := 0x200

/-- `FONT_BASE`. -/
def fontBase : Nat := 0x000

/-- `DISPLAY_W`. -/
def displayW : Nat := 64

/-- `DISPLAY_H`. -/
def displayH : Nat := 32

/-- `SPRITE_W`. -/
def spriteW : Nat := 8

/-- `MAX_ROM_BYTES` (00_scope.md R8). -/
def maxRomBytes : Nat := memSize - programBase

/-- The glyph bytes of digits 0 to 7 (10_state.md R47). PRESUMED: general knowledge, not in the source (log 7). -/
def fontLow : List Byte :=
  [0xF0, 0x90, 0x90, 0x90, 0xF0,  0x20, 0x60, 0x20, 0x20, 0x70,
   0xF0, 0x10, 0xF0, 0x80, 0xF0,  0xF0, 0x10, 0xF0, 0x10, 0xF0,
   0x90, 0x90, 0xF0, 0x10, 0x10,  0xF0, 0x80, 0xF0, 0x10, 0xF0,
   0xF0, 0x80, 0xF0, 0x90, 0xF0,  0xF0, 0x10, 0x20, 0x40, 0x40]

/-- The glyph bytes of digits 8 to F (10_state.md R47). PRESUMED (log 7). -/
def fontHigh : List Byte :=
  [0xF0, 0x90, 0xF0, 0x90, 0xF0,  0xF0, 0x90, 0xF0, 0x10, 0xF0,
   0xF0, 0x90, 0xF0, 0x90, 0x90,  0xE0, 0x90, 0xE0, 0x90, 0xE0,
   0xF0, 0x80, 0x80, 0x80, 0xF0,  0xE0, 0x90, 0x90, 0x90, 0xE0,
   0xF0, 0x80, 0xF0, 0x80, 0xF0,  0xF0, 0x80, 0xF0, 0x80, 0x80]

/-- This hardware's parameters: the defaults of 00_scope.md R7. -/
def hw : Config where
  stackCapacity := none
  font := fontLow ++ fontHigh
  regReset := 0
  memFill := 0
  vfDestOrder := .flagLast
  shiftSource := .x
  drwZeroHeight := .blank
  fontAddrMask := false
  strictDecode := true
  sysDiagnosed := false

end Sys2Proof.Machine
end

