-- ==== Sys2Proof/Syntax.lean ====
section
/-! DEFINITION. The instructions (30_encoding.md R107): one constructor per row of spec/opcode_table.json,
each carrying only its operands. The words of no row are not instructions of the table: Decode.lean's
`Decoded` carries them beside `Instr` as the sixteen-bit `Unrecognized` variant. -/

namespace Sys2Proof

/-- The 35 instructions of 30_encoding.md R100, in the table's order. -/
inductive Instr where
  /-- 00E0 CLS -/
  | cls
  /-- 00EE RET -/
  | ret
  /-- 0NNN SYS nnn -/
  | sys (nnn : Addr12)
  /-- 1NNN JP nnn -/
  | jp (nnn : Addr12)
  /-- 2NNN CALL nnn -/
  | call (nnn : Addr12)
  /-- 3XKK SE Vx, kk -/
  | seImm (x : Nibble) (kk : Byte)
  /-- 4XKK SNE Vx, kk -/
  | sneImm (x : Nibble) (kk : Byte)
  /-- 5XY0 SE Vx, Vy -/
  | seReg (x y : Nibble)
  /-- 6XKK LD Vx, kk -/
  | ldImm (x : Nibble) (kk : Byte)
  /-- 7XKK ADD Vx, kk -/
  | addImm (x : Nibble) (kk : Byte)
  /-- 8XY0 LD Vx, Vy -/
  | mov (x y : Nibble)
  /-- 8XY1 OR Vx, Vy -/
  | or (x y : Nibble)
  /-- 8XY2 AND Vx, Vy -/
  | and (x y : Nibble)
  /-- 8XY3 XOR Vx, Vy -/
  | xor (x y : Nibble)
  /-- 8XY4 ADD Vx, Vy -/
  | add (x y : Nibble)
  /-- 8XY5 SUB Vx, Vy -/
  | sub (x y : Nibble)
  /-- 8XY6 SHR Vx; Y is carried so that the word can be rebuilt (30_encoding.md R107) -/
  | shr (x y : Nibble)
  /-- 8XY7 SUBN Vx, Vy -/
  | subn (x y : Nibble)
  /-- 8XYE SHL Vx; Y as for SHR -/
  | shl (x y : Nibble)
  /-- 9XY0 SNE Vx, Vy -/
  | sneReg (x y : Nibble)
  /-- ANNN LD I, nnn -/
  | ldI (nnn : Addr12)
  /-- BNNN JP V0, nnn -/
  | jpV0 (nnn : Addr12)
  /-- CXKK RND Vx, kk -/
  | rnd (x : Nibble) (kk : Byte)
  /-- DXYN DRW Vx, Vy, n -/
  | drw (x y n : Nibble)
  /-- EX9E SKP Vx -/
  | skp (x : Nibble)
  /-- EXA1 SKNP Vx -/
  | sknp (x : Nibble)
  /-- FX07 LD Vx, DT -/
  | ldVxDt (x : Nibble)
  /-- FX0A LD Vx, K -/
  | ldVxK (x : Nibble)
  /-- FX15 LD DT, Vx -/
  | ldDtVx (x : Nibble)
  /-- FX18 LD ST, Vx -/
  | ldStVx (x : Nibble)
  /-- FX1E ADD I, Vx -/
  | addI (x : Nibble)
  /-- FX29 LD F, Vx -/
  | ldF (x : Nibble)
  /-- FX33 LD B, Vx -/
  | ldB (x : Nibble)
  /-- FX55 LD [I], Vx -/
  | storeRegs (x : Nibble)
  /-- FX65 LD Vx, [I] -/
  | loadRegs (x : Nibble)
  deriving DecidableEq, Repr

end Sys2Proof
end

