-- ==== Sys2Proof/Decode.lean ====
section
/-! DEFINITION. The decoder (30_encoding.md R91 to R106), a pure total function of the word, and after
it the encoder (R108) and the opcode map's masks (R100). Field positions and sub-opcode values are
general knowledge that the spec adopts (D1, log 10). -/

namespace Sys2Proof

/-- What a word decodes to: the closed sum of 30_encoding.md R107. -/
inductive Decoded where
  | instr (i : Instr)
  /-- A word of no row: rejected by this name, and executed as a no-op (30_encoding.md R104). -/
  | unrecognized (op : Word)
  deriving DecidableEq, Repr

/-- `OP = op[15:12]` (30_encoding.md R92), and the other fields of that rule below. -/
def fieldOp (op : Word) : Nibble := op.extractLsb' 12 4

def fieldX (op : Word) : Nibble := op.extractLsb' 8 4

def fieldY (op : Word) : Nibble := op.extractLsb' 4 4

def fieldN (op : Word) : Nibble := op.extractLsb' 0 4

def fieldKK (op : Word) : Byte := op.extractLsb' 0 8

def fieldNNN (op : Word) : Addr12 := op.extractLsb' 0 12

/-- The word of the bytes at A and A + 1: big-endian (20_memory.md R62). -/
def wordOfBytes (first second : Byte) : Word := first ++ second

/-- The two bytes of a word in the order of their addresses (20_memory.md R62). -/
def bytesOfWord (w : Word) : Byte × Byte := (w.extractLsb' 8 8, w.extractLsb' 0 8)

/-- Whether a 0x0-family word is `w`: all sixteen bits are compared when strict (30_encoding.md R97,
R106), and only the low byte when not (log 11). -/
def isZeroFamilyWord (strict : Bool) (w op : Word) : Bool :=
  if strict then op == w else fieldKK op == fieldKK w

/-- The 0x0 family (30_encoding.md R97). -/
def decode0 (strict : Bool) (op : Word) : Decoded :=
  if isZeroFamilyWord strict 0x00E0#16 op then .instr .cls
  else if isZeroFamilyWord strict 0x00EE#16 op then .instr .ret
  else .instr (.sys (fieldNNN op))

/-- The 0x5 and 0x9 families (30_encoding.md R99): `i` is the family's instruction. Not strict: N is ignored. -/
def decodeN0 (strict : Bool) (i : Instr) (op : Word) : Decoded :=
  if strict && fieldN op != 0x0#4 then .unrecognized op else .instr i

/-- The 0x8 family (30_encoding.md R98). -/
def decode8 (op : Word) : Decoded :=
  let x := fieldX op
  let y := fieldY op
  match fieldN op with
  | 0x0#4 => .instr (.mov x y)
  | 0x1#4 => .instr (.or x y)
  | 0x2#4 => .instr (.and x y)
  | 0x3#4 => .instr (.xor x y)
  | 0x4#4 => .instr (.add x y)
  | 0x5#4 => .instr (.sub x y)
  | 0x6#4 => .instr (.shr x y)
  | 0x7#4 => .instr (.subn x y)
  | 0xE#4 => .instr (.shl x y)
  | _ => .unrecognized op

/-- The 0xE family (30_encoding.md R101). -/
def decodeE (op : Word) : Decoded :=
  match fieldKK op with
  | 0x9E#8 => .instr (.skp (fieldX op))
  | 0xA1#8 => .instr (.sknp (fieldX op))
  | _ => .unrecognized op

/-- The 0xF family (30_encoding.md R102). -/
def decodeF (op : Word) : Decoded :=
  let x := fieldX op
  match fieldKK op with
  | 0x07#8 => .instr (.ldVxDt x)
  | 0x0A#8 => .instr (.ldVxK x)
  | 0x15#8 => .instr (.ldDtVx x)
  | 0x18#8 => .instr (.ldStVx x)
  | 0x1E#8 => .instr (.addI x)
  | 0x29#8 => .instr (.ldF x)
  | 0x33#8 => .instr (.ldB x)
  | 0x55#8 => .instr (.storeRegs x)
  | 0x65#8 => .instr (.loadRegs x)
  | _ => .unrecognized op

/-- `Decode` under parameter `STRICT_DECODE`: the most significant nibble first (30_encoding.md R91, R96). -/
def decodeWith (strict : Bool) (op : Word) : Decoded :=
  let x := fieldX op
  let y := fieldY op
  let kk := fieldKK op
  let nnn := fieldNNN op
  match fieldOp op with
  | 0x0#4 => decode0 strict op
  | 0x1#4 => .instr (.jp nnn)
  | 0x2#4 => .instr (.call nnn)
  | 0x3#4 => .instr (.seImm x kk)
  | 0x4#4 => .instr (.sneImm x kk)
  | 0x5#4 => decodeN0 strict (.seReg x y) op
  | 0x6#4 => .instr (.ldImm x kk)
  | 0x7#4 => .instr (.addImm x kk)
  | 0x8#4 => decode8 op
  | 0x9#4 => decodeN0 strict (.sneReg x y) op
  | 0xA#4 => .instr (.ldI nnn)
  | 0xB#4 => .instr (.jpV0 nnn)
  | 0xC#4 => .instr (.rnd x kk)
  | 0xD#4 => .instr (.drw x y (fieldN op))
  | 0xE#4 => decodeE op
  | _ => decodeF op

/-- `Decode` of this hardware (30_encoding.md R91). -/
def decode (op : Word) : Decoded := decodeWith Machine.hw.strictDecode op

/-- Decoding the bytes a fetch reads, the byte at the lower address first (20_memory.md R62). -/
def decodeBytes (first second : Byte) : Decoded := decode (wordOfBytes first second)

/-- The formats of 30_encoding.md R93, the fields from bit 15 down. -/
def wordAddr (op : Nibble) (nnn : Addr12) : Word := op ++ nnn

def wordRegImm (op x : Nibble) (kk : Byte) : Word := op ++ (x ++ kk : BitVec 12)

def wordRegReg (op x y n : Nibble) : Word := op ++ (x ++ (y ++ n : Byte) : BitVec 12)

/-- `Encode` (30_encoding.md R108): the operands at their positions (R92), the fixed bits at the row's match value (R100). -/
def encode : Instr → Word
  | .cls => 0x00E0#16
  | .ret => 0x00EE#16
  | .sys nnn => wordAddr 0x0#4 nnn
  | .jp nnn => wordAddr 0x1#4 nnn
  | .call nnn => wordAddr 0x2#4 nnn
  | .seImm x kk => wordRegImm 0x3#4 x kk
  | .sneImm x kk => wordRegImm 0x4#4 x kk
  | .seReg x y => wordRegReg 0x5#4 x y 0x0#4
  | .ldImm x kk => wordRegImm 0x6#4 x kk
  | .addImm x kk => wordRegImm 0x7#4 x kk
  | .mov x y => wordRegReg 0x8#4 x y 0x0#4
  | .or x y => wordRegReg 0x8#4 x y 0x1#4
  | .and x y => wordRegReg 0x8#4 x y 0x2#4
  | .xor x y => wordRegReg 0x8#4 x y 0x3#4
  | .add x y => wordRegReg 0x8#4 x y 0x4#4
  | .sub x y => wordRegReg 0x8#4 x y 0x5#4
  | .shr x y => wordRegReg 0x8#4 x y 0x6#4
  | .subn x y => wordRegReg 0x8#4 x y 0x7#4
  | .shl x y => wordRegReg 0x8#4 x y 0xE#4
  | .sneReg x y => wordRegReg 0x9#4 x y 0x0#4
  | .ldI nnn => wordAddr 0xA#4 nnn
  | .jpV0 nnn => wordAddr 0xB#4 nnn
  | .rnd x kk => wordRegImm 0xC#4 x kk
  | .drw x y n => wordRegReg 0xD#4 x y n
  | .skp x => wordRegImm 0xE#4 x 0x9E#8
  | .sknp x => wordRegImm 0xE#4 x 0xA1#8
  | .ldVxDt x => wordRegImm 0xF#4 x 0x07#8
  | .ldVxK x => wordRegImm 0xF#4 x 0x0A#8
  | .ldDtVx x => wordRegImm 0xF#4 x 0x15#8
  | .ldStVx x => wordRegImm 0xF#4 x 0x18#8
  | .addI x => wordRegImm 0xF#4 x 0x1E#8
  | .ldF x => wordRegImm 0xF#4 x 0x29#8
  | .ldB x => wordRegImm 0xF#4 x 0x33#8
  | .storeRegs x => wordRegImm 0xF#4 x 0x55#8
  | .loadRegs x => wordRegImm 0xF#4 x 0x65#8

/-- `Encode` on the whole sum: an unrecognized word is its own encoding (30_encoding.md R108). -/
def encodeDecoded : Decoded → Word
  | .instr i => encode i
  | .unrecognized op => op

/-- The mask and match columns of 30_encoding.md R100: one row of the opcode map. -/
structure OpcodeRow where
  mask : Word
  value : Word
  deriving DecidableEq, Repr

/-- The row of 30_encoding.md R100 of each instruction. -/
def opcodeRow : Instr → OpcodeRow
  | .cls => ⟨0xFFFF#16, 0x00E0#16⟩
  | .ret => ⟨0xFFFF#16, 0x00EE#16⟩
  | .sys _ => ⟨0xF000#16, 0x0000#16⟩
  | .jp _ => ⟨0xF000#16, 0x1000#16⟩
  | .call _ => ⟨0xF000#16, 0x2000#16⟩
  | .seImm _ _ => ⟨0xF000#16, 0x3000#16⟩
  | .sneImm _ _ => ⟨0xF000#16, 0x4000#16⟩
  | .seReg _ _ => ⟨0xF00F#16, 0x5000#16⟩
  | .ldImm _ _ => ⟨0xF000#16, 0x6000#16⟩
  | .addImm _ _ => ⟨0xF000#16, 0x7000#16⟩
  | .mov _ _ => ⟨0xF00F#16, 0x8000#16⟩
  | .or _ _ => ⟨0xF00F#16, 0x8001#16⟩
  | .and _ _ => ⟨0xF00F#16, 0x8002#16⟩
  | .xor _ _ => ⟨0xF00F#16, 0x8003#16⟩
  | .add _ _ => ⟨0xF00F#16, 0x8004#16⟩
  | .sub _ _ => ⟨0xF00F#16, 0x8005#16⟩
  | .shr _ _ => ⟨0xF00F#16, 0x8006#16⟩
  | .subn _ _ => ⟨0xF00F#16, 0x8007#16⟩
  | .shl _ _ => ⟨0xF00F#16, 0x800E#16⟩
  | .sneReg _ _ => ⟨0xF00F#16, 0x9000#16⟩
  | .ldI _ => ⟨0xF000#16, 0xA000#16⟩
  | .jpV0 _ => ⟨0xF000#16, 0xB000#16⟩
  | .rnd _ _ => ⟨0xF000#16, 0xC000#16⟩
  | .drw _ _ _ => ⟨0xF000#16, 0xD000#16⟩
  | .skp _ => ⟨0xF0FF#16, 0xE09E#16⟩
  | .sknp _ => ⟨0xF0FF#16, 0xE0A1#16⟩
  | .ldVxDt _ => ⟨0xF0FF#16, 0xF007#16⟩
  | .ldVxK _ => ⟨0xF0FF#16, 0xF00A#16⟩
  | .ldDtVx _ => ⟨0xF0FF#16, 0xF015#16⟩
  | .ldStVx _ => ⟨0xF0FF#16, 0xF018#16⟩
  | .addI _ => ⟨0xF0FF#16, 0xF01E#16⟩
  | .ldF _ => ⟨0xF0FF#16, 0xF029#16⟩
  | .ldB _ => ⟨0xF0FF#16, 0xF033#16⟩
  | .storeRegs _ => ⟨0xF0FF#16, 0xF055#16⟩
  | .loadRegs _ => ⟨0xF0FF#16, 0xF065#16⟩

/-- The word whose bits are `w`, in the opcode table's numbering: every bit above `nbits` is 0. -/
def tableWord (nbits w : Nat) : Word := BitVec.ofNat 16 (w % 2 ^ nbits)

/-- The instruction the decoder reads from a row's word, its bytes laid out as memory holds them. -/
def decodeTableWord (nbits w : Nat) : Option Instr :=
  let bytes := bytesOfWord (tableWord nbits w)
  match decodeBytes bytes.1 bytes.2 with
  | .instr i => some i
  | .unrecognized _ => none

end Sys2Proof
end

