-- ==== Sys2Proof/Machine/State.lean ====
section
/-! DEFINITION. The machine state as plain data (10_state.md R30), the reasons a step can stop, and the
state after reset (70_reset_and_hazards.md R320). -/

namespace Sys2Proof.Machine

/-- The halt reasons of 60_exceptions.md R281. The spec describes what raising one does (R283), so a step
that raises one answers a NEXT state whose mode is `Halted` with the reason (log 2); no step of this
model answers `Outcome.fault`. -/
inductive Fault where
  /-- Raised by 00EE RET on an empty stack (40_system_and_flow.md R122). Safe: the machine stops as the source says. -/
  | stackUnderflow
  /-- Raised by the fetch of any step when PC + 1 > 0xFFF (20_memory.md R63). Safe: as the source says. -/
  | fetchOutOfBounds
  /-- Raised by DXYN, FX33, FX55 and FX65 when their last address exceeds 0xFFF (20_memory.md R66). Safe: as the source says. -/
  | memoryOutOfBounds
  /-- Raised by EX9E and EXA1 when V[X] > 15 (43_keys_timers_memory.md R230). Safe: halts where the original may go on (D16, log 19). -/
  | keyIndexOutOfRange
  /-- Raised by 2NNN CALL into a full stack of finite capacity only (60_exceptions.md R286). Safe; unreachable with this hardware's unbounded stack (log 24). -/
  | stackOverflow
  deriving DecidableEq, Repr

/-- What has no meaning in the model. No step answers a refusal: every word has its meaning. -/
inductive Refusal where
  /-- Raised by an arm of `exec` that has no meaning yet: none is left. Safe. -/
  | notModelled (mnemonic : String)
  /-- Raised by the host's reset with a ROM longer than 3584 bytes, a caller error for which the spec defines
  no state (70_reset_and_hazards.md R322, D25, log 27). Safe: no claim covers such a load. -/
  | romTooLong
  deriving DecidableEq, Repr

/-- The mode of the Step Driver (10_state.md R48). -/
inductive Mode where
  | ready
  | halted (reason : Fault)
  deriving DecidableEq, Repr

/-- Memory: the bytes that differ from what an unlisted address reads as, by rising address (20_memory.md
R60, log 6). Its operations stand in Machine/Memory.lean. -/
abbrev Memory := List Host.Cell

/-- The framebuffer (10_state.md R46): row y of 32, and in it bit x for column x of 64 (log 5). -/
abbrev Display := Vector (BitVec 64) 32

/-- The state aggregate of 10_state.md R30, with two fields of the model's own. -/
structure State where
  /-- `mem`: 4096 bytes (10_state.md R49). -/
  mem : Memory
  /-- V0 to VF (10_state.md R31). -/
  v : Vector Byte 16
  /-- The program counter (10_state.md R37). -/
  pc : Word
  /-- The address register I (10_state.md R42). -/
  i : Word
  /-- The call stack (10_state.md R43); its head is the value pushed last (log 4). -/
  stack : List Word
  /-- The delay timer (10_state.md R44). -/
  dt : Byte
  /-- The sound timer (10_state.md R45). -/
  st : Byte
  /-- The display buffer (10_state.md R46). -/
  disp : Display
  /-- Ready or Halted (10_state.md R48). -/
  mode : Mode
  /-- THE MODEL'S OWN: the inputs the host has lined up, one per coming step (log 1). -/
  inputs : List StepInput
  /-- THE MODEL'S OWN: counts completed steps; a step with no input lined up reads its free values here (log 1). -/
  stepNo : Nat
  deriving DecidableEq, Repr

/-- The machine right after reset with an empty ROM (70_reset_and_hazards.md R320; log 9). The memory lists
nothing: an unlisted address reads as the font or as MEM_FILL (log 6). The two fields of the model's
own are DESIGN CHOICES (log 31). -/
def State.reset : State where
  mem := []
  v := Vector.replicate 16 hw.regReset
  pc := BitVec.ofNat 16 programBase
  i := hw.regReset.setWidth 16
  stack := []
  dt := 0
  st := 0
  disp := Vector.replicate 32 0
  mode := .ready
  inputs := []
  stepNo := 0

end Sys2Proof.Machine
end

