-- ==== Sys2Proof/Machine/Memory.lean ====
section
/-! DEFINITION. The memory primitives (00_scope.md R15) over the canonical list of State. -/

namespace Sys2Proof.Machine

/-- What an unlisted address reads as: the reset contents without a ROM (20_memory.md R70), that is the
font (10_state.md R47) and elsewhere MEM_FILL. DESIGN CHOICE of the spec (D12), unsafe (log 6). -/
def Memory.unlisted (a : Nat) : Byte :=
  if a < fontBase then hw.memFill else hw.font.getD (a - fontBase) hw.memFill

/-- `MemRead(a, 1)`: the byte written last, else the reset contents (20_memory.md R71). -/
def Memory.read : Memory → Nat → Byte
  | [], a => Memory.unlisted a
  | (b, w) :: m, a => if a = b then w else Memory.read m a

/-- The entry of address `a` holding `v`: none when `v` is what the address reads as unlisted. -/
def Memory.entry (a : Nat) (v : Byte) : Memory :=
  if v = Memory.unlisted a then [] else [(a, v)]

/-- Put `v` at `a`, keeping the addresses rising. -/
def Memory.put : Memory → Nat → Byte → Memory
  | [], a, v => Memory.entry a v
  | (b, w) :: m, a, v =>
    if a < b then Memory.entry a v ++ (b, w) :: m
    else if a = b then Memory.entry a v ++ m
    else (b, w) :: Memory.put m a v

/-- `MemWrite(a, 1, v)`. R15 defines it inside memory only, and every caller has checked its addresses:
outside memory nothing is written (log 28). -/
def Memory.write (m : Memory) (a : Nat) (v : Byte) : Memory :=
  if a < memSize then Memory.put m a v else m

/-- Write bytes at consecutive addresses from `a`. -/
def Memory.writeBytes (m : Memory) (a : Nat) : List Byte → Memory
  | [] => m
  | b :: bs => Memory.writeBytes (Memory.write m a b) (a + 1) bs

/-- The canonical form: addresses strictly rising and inside memory, no entry equal to its unlisted value. -/
def Memory.wf : Memory → Bool
  | [] => true
  | (a, v) :: m => decide (a < memSize) && v != Memory.unlisted a && m.all (fun c => decide (a < c.1)) && Memory.wf m

end Sys2Proof.Machine
end

