-- ==== Sys2Proof/Machine/Ops.lean ====
section
/-! DEFINITION. The named operations over registers, PC, stack, display, timers and the step's inputs,
and taking a fault. -/

namespace Sys2Proof.Machine

/-- The three outcomes, at this machine's types. -/
abbrev Result := Host.Outcome State Fault Refusal

/-- `V[x]` (00_scope.md R13). No register is hardwired (10_state.md R31). -/
def State.getV (s : State) (x : Nibble) : Byte := s.v[x.toNat]'x.isLt

/-- `V[x] <- b` (00_scope.md R13). -/
def State.setV (s : State) (x : Nibble) (b : Byte) : State := { s with v := s.v.set x.toNat b x.isLt }

/-- Register 15, the flag register (10_state.md R32). -/
def flagReg : Nibble := 0xF#4

/-- `I <- a`. -/
def State.setI (s : State) (a : Word) : State := { s with i := a }

/-- `PC <- a`. -/
def State.setPc (s : State) (a : Word) : State := { s with pc := a }

/-- `DT <- b`. -/
def State.setDt (s : State) (b : Byte) : State := { s with dt := b }

/-- `ST <- b`. -/
def State.setSt (s : State) (b : Byte) : State := { s with st := b }

/-- `mem <- m`. -/
def State.setMem (s : State) (m : Memory) : State := { s with mem := m }

/-- `disp <- d`. -/
def State.setDisp (s : State) (d : Display) : State := { s with disp := d }

/-- `PC <- PC + 2`, in 16 bits: the fetch's advance (70_reset_and_hazards.md R325) and a skip (40_system_and_flow.md R126). -/
def State.advance (s : State) : State := s.setPc (s.pc + 2#16)

/-- `PC <- PC - 2`: back to the instruction that was fetched (43_keys_timers_memory.md R235). -/
def State.rewind (s : State) : State := s.setPc (s.pc - 2#16)

/-- `if c then PC <- PC + 2` (40_system_and_flow.md R126). -/
def State.skipIf (s : State) (c : Bool) : State := if c then s.advance else s

/-- `push(a)` (00_scope.md R13). -/
def State.push (s : State) (a : Word) : State := { s with stack := a :: s.stack }

/-- Fault entry (60_exceptions.md R283) from the state `s` with which the step began: nothing of it
changes but the mode. -/
def State.halt (s : State) (r : Fault) : State := { s with mode := .halted r }

/-- `raise Fault(r)` in an instruction (00_scope.md R16). Every instruction checks before its first
effect, so the fetch's advance is all there is to discard: the halted state has PC = A (log 3). -/
def raise (r : Fault) (s : State) : Result := .next (s.rewind.halt r)

/-- `Toggle`'s pixel (42_address_and_display.md R202): column x, row y. -/
def Display.pixel (d : Display) (x : Fin 64) (y : Fin 32) : Bool := d[y].getLsbD x

/-- `disp[x][y] <- disp[x][y] ^ 1` (42_address_and_display.md R202). -/
def Display.flip (d : Display) (x : Fin 64) (y : Fin 32) : Display := d.set y (d[y] ^^^ BitVec.twoPow 64 x)

/-- Clear-all (40_system_and_flow.md R121). -/
def Display.clear : Display := Vector.replicate 32 0

/-- `if t > 0 then t <- t - 1` (43_keys_timers_memory.md R245). -/
def decrement (t : Byte) : Byte := if t = 0 then 0 else t - 1

/-- The timer phase (43_keys_timers_memory.md R245). -/
def State.tick (s : State) : State := { s with dt := decrement s.dt, st := decrement s.st }

/-- The inputs of the coming step: what the host has lined up, else free values (log 1). -/
def State.input (s : State) : StepInput :=
  match s.inputs with
  | inp :: _ => inp
  | [] => ⟨Config.freeKeyDown s.stepNo, Config.freeKeyPick s.stepNo, Config.freeRandByte s.stepNo⟩

/-- The step's inputs are used up: the next step has inputs of its own (60_exceptions.md R301, R305). -/
def State.nextInput (s : State) : State := { s with inputs := s.inputs.tail, stepNo := s.stepNo + 1 }

/-- `for k in 0 .. n-1` over an accumulator, in rising order. -/
def upTo (n : Nat) (f : Nat → α → α) (a : α) : α :=
  match n with
  | 0 => a
  | n + 1 => f n (upTo n f a)

end Sys2Proof.Machine
end

