-- ==== Sys2Proof/Machine/Operands.lean ====
section
/-! DEFINITION. The operand forms: immediates, the shift's source, addresses relative to I, keys and
sprite pixels. -/

namespace Sys2Proof.Machine

/-- `zext_16(NNN)` (30_encoding.md R94). -/
def zextAddr (nnn : Addr12) : Word := nnn.setWidth 16

/-- `zext_16(b)` of a register value (00_scope.md R12). -/
def zextByte (b : Byte) : Word := b.setWidth 16

/-- The source of 8XY6 and 8XYE (41_alu.md R171, R173), under `SHIFT_SOURCE`. -/
def shiftOperand (cfg : Config) (s : State) (x y : Nibble) : Byte :=
  match cfg.shiftSource with
  | .x => s.getV x
  | .y => s.getV y

/-- The target of BNNN: wrapped into memory (40_system_and_flow.md R131). -/
def jumpV0Target (s : State) (nnn : Addr12) : Word :=
  BitVec.ofNat 16 ((nnn.toNat + (s.getV 0x0#4).toNat) % memSize)

/-- The bounds check of an I-relative access of `count` bytes, on the unbounded sum (20_memory.md R66). No
byte accessed, no check. -/
def spanOk (base : Word) (count : Nat) : Bool := count == 0 || decide (base.toNat + (count - 1) ≤ 0xFFF)

/-- How many registers FX55 and FX65 move: V0 to V[X], inclusive (43_keys_timers_memory.md R243, R244). -/
def blockCount (x : Nibble) : Nat := x.toNat + 1

/-- The address of glyph `digit` (43_keys_timers_memory.md R240, R241), under `FONT_ADDR_MASK`. -/
def glyphAddr (cfg : Config) (digit : Byte) : Word :=
  let d := if cfg.fontAddrMask then digit &&& 0x0F#8 else digit
  BitVec.ofNat 16 fontBase + 5#16 * zextByte d

/-- The decimal digits of a byte, hundreds first (43_keys_timers_memory.md R242). -/
def hundreds (v : Byte) : Byte := BitVec.ofNat 8 (v.toNat / 100)

def tens (v : Byte) : Byte := BitVec.ofNat 8 (v.toNat / 10 % 10)

def ones (v : Byte) : Byte := BitVec.ofNat 8 (v.toNat % 10)

/-- `KeyDown(k)` (60_exceptions.md R301). -/
def keyIsDown (inp : StepInput) (k : Nibble) : Bool := inp.keyDown.getLsbD k.toNat

/-- The first of `n` keys from `k` on, in rising order around 16, that is down. -/
def seekKey (inp : StepInput) : Nat → Nibble → Option Nibble
  | 0, _ => none
  | n + 1, k => if keyIsDown inp k then some k else seekKey inp n (k + 1#4)

/-- `FirstKeyDown()` (60_exceptions.md R301): `none` when every key is up, else a key that is down, any of
them, as the keyboard's pick has it (43_keys_timers_memory.md R235, D17, log 20). -/
def firstKeyDown (inp : StepInput) : Option Nibble := seekKey inp 16 inp.keyPick

/-- The rows DXYN draws (42_address_and_display.md R205), under `DRW_ZERO_HEIGHT`. -/
def drawHeight (cfg : Config) (n : Nibble) : Nat :=
  if n = 0x0#4 then
    match cfg.drwZeroHeight with
    | .blank => 0
    | .rows16 => 16
  else n.toNat

/-- The screen column of sprite column `c` at origin `vx` (42_address_and_display.md R203). -/
def spriteCol (vx : Byte) (c : Nat) : Fin 64 := Fin.ofNat 64 (vx.toNat + c)

/-- The screen row of sprite row `r` at origin `vy` (42_address_and_display.md R203). -/
def spriteRow (vy : Byte) (r : Nat) : Fin 32 := Fin.ofNat 32 (vy.toNat + r)

/-- The bit of sprite column `c` in a row byte: bit 7 is leftmost (42_address_and_display.md R204). -/
def spriteBit (row : Byte) (c : Nat) : Bool := row.getLsbD (7 - c)

end Sys2Proof.Machine
end

