-- ==== Sys2Proof/Machine/Flags.lean ====
section
/-! DEFINITION. The flag values, computed from the source values before any write (41_alu.md R162), and
the order of the writes (R161). -/

namespace Sys2Proof.Machine

/-- A flag as VF holds it: 0 or 1 (41_alu.md R162). -/
def flagByte (b : Bool) : Byte := if b then 1#8 else 0#8

/-- 8XY4's carry: the exact sum exceeds 255. -/
def carryOut (a b : Byte) : Bool := decide (a.toNat + b.toNat > 255)

/-- No borrow in `a - b`: 8XY5 with a = V[X], 8XY7 with a = V[Y]. -/
def noBorrow (a b : Byte) : Bool := decide (a.toNat ≥ b.toNat)

/-- 8XY6's shifted-out bit. -/
def lowBit (a : Byte) : Bool := a.getLsbD 0

/-- 8XYE's shifted-out bit. -/
def highBit (a : Byte) : Bool := a.getLsbD 7

/-- Write a result to V[X] and a flag to VF, in the order of `VF_DEST_ORDER` (41_alu.md R161). -/
def State.setResultFlag (cfg : Config) (s : State) (x : Nibble) (result : Byte) (flag : Bool) : State :=
  match cfg.vfDestOrder with
  | .flagLast => (s.setV x result).setV flagReg (flagByte flag)
  | .resultLast => (s.setV flagReg (flagByte flag)).setV x result

end Sys2Proof.Machine
end

