-- ==== Sys2Proof/Machine/Alu.lean ====
section
/-! DEFINITION. Register and ALU instructions (41_alu.md). Sources are read before any write (R161). -/

namespace Sys2Proof.Machine

/-- 6XKK LD (R163). -/
def execLdImm (x : Nibble) (kk : Byte) (s : State) : Result := .next (s.setV x kk)

/-- 7XKK ADD (R164): no flag. -/
def execAddImm (x : Nibble) (kk : Byte) (s : State) : Result := .next (s.setV x (s.getV x + kk))

/-- 8XY0 LD (R165). -/
def execMov (x y : Nibble) (s : State) : Result := .next (s.setV x (s.getV y))

/-- 8XY1 OR (R166): VF is not reset. -/
def execOr (x y : Nibble) (s : State) : Result := .next (s.setV x (s.getV x ||| s.getV y))

/-- 8XY2 AND (R167). -/
def execAnd (x y : Nibble) (s : State) : Result := .next (s.setV x (s.getV x &&& s.getV y))

/-- 8XY3 XOR (R168). -/
def execXor (x y : Nibble) (s : State) : Result := .next (s.setV x (s.getV x ^^^ s.getV y))

/-- 8XY4 ADD (R169). -/
def execAdd (x y : Nibble) (s : State) : Result :=
  let a := s.getV x
  let b := s.getV y
  .next (s.setResultFlag hw x (a + b) (carryOut a b))

/-- 8XY5 SUB (R170). -/
def execSub (x y : Nibble) (s : State) : Result :=
  let a := s.getV x
  let b := s.getV y
  .next (s.setResultFlag hw x (a - b) (noBorrow a b))

/-- 8XY6 SHR (R171). -/
def execShr (x y : Nibble) (s : State) : Result :=
  let a := shiftOperand hw s x y
  .next (s.setResultFlag hw x (a >>> 1) (lowBit a))

/-- 8XY7 SUBN (R172). -/
def execSubn (x y : Nibble) (s : State) : Result :=
  let a := s.getV x
  let b := s.getV y
  .next (s.setResultFlag hw x (b - a) (noBorrow b a))

/-- 8XYE SHL (R173). -/
def execShl (x y : Nibble) (s : State) : Result :=
  let a := shiftOperand hw s x y
  .next (s.setResultFlag hw x (a <<< 1) (highBit a))

/-- CXKK RND (R174): the step's random byte is a draw (60_exceptions.md R305). -/
def execRnd (x : Nibble) (kk : Byte) (s : State) : Result := .next (s.setV x (s.input.randByte &&& kk))

end Sys2Proof.Machine
end

