-- ==== Sys2Proof/Machine/Draw.lean ====
section
/-! DEFINITION. The address-register load and the framebuffer controller (42_address_and_display.md). -/

namespace Sys2Proof.Machine

/-- ANNN LD I (R201). -/
def execLdI (nnn : Addr12) (s : State) : Result := .next (s.setI (zextAddr nnn))

/-- A drawing in progress: the display so far and whether a pixel has gone from on to off. -/
structure Canvas where
  disp : Display
  collision : Bool
  deriving DecidableEq, Repr

/-- `Toggle(x, y)` (R202), its answer gathered into the collision (R205). -/
def Canvas.toggle (p : Canvas) (x : Fin 64) (y : Fin 32) : Canvas :=
  { disp := p.disp.flip x y, collision := p.collision || p.disp.pixel x y }

/-- One sprite row: its set bits toggle their pixels (R204, R205). -/
def Canvas.drawRow (row vx : Byte) (y : Fin 32) (p : Canvas) : Canvas :=
  upTo spriteW (fun c p => if spriteBit row c then p.toggle (spriteCol vx c) y else p) p

/-- The loops of R205: `rows` sprite rows from memory at `base`, at origin (vx, vy). -/
def Canvas.drawSprite (m : Memory) (base : Word) (vx vy : Byte) (rows : Nat) (p : Canvas) : Canvas :=
  upTo rows (fun r p => p.drawRow (m.read (base.toNat + r)) vx (spriteRow vy r)) p

/-- DXYN DRW with `rows` rows (R205): bounds first, VF last. -/
def drawRows (x y : Nibble) (rows : Nat) (s : State) : Result :=
  if spanOk s.i rows then
    let p := Canvas.drawSprite s.mem s.i (s.getV x) (s.getV y) rows ⟨s.disp, false⟩
    .next ((s.setDisp p.disp).setV flagReg (flagByte p.collision))
  else raise .memoryOutOfBounds s

/-- DXYN DRW (R205). -/
def execDrw (x y n : Nibble) (s : State) : Result := drawRows x y (drawHeight hw n) s

end Sys2Proof.Machine
end

