-- ==== Sys2Proof/Machine/Flow.lean ====
section
/-! DEFINITION. System and control-flow instructions (40_system_and_flow.md). `s` is the state after the
fetch: its PC is A + 2 (70_reset_and_hazards.md R325). -/

namespace Sys2Proof.Machine

/-- 00E0 CLS (R121). -/
def execCls (s : State) : Result := .next (s.setDisp Display.clear)

/-- 00EE RET (R122). -/
def execRet (s : State) : Result :=
  match s.stack with
  | [] => raise .stackUnderflow s
  | a :: rest => .next { s with pc := a, stack := rest }

/-- 0NNN SYS (R123): nothing. -/
def execSys (_nnn : Addr12) (s : State) : Result := .next s

/-- 1NNN JP (R124). -/
def execJp (nnn : Addr12) (s : State) : Result := .next (s.setPc (zextAddr nnn))

/-- 2NNN CALL under a stack capacity (R125, 60_exceptions.md R286). -/
def callWith (cfg : Config) (nnn : Addr12) (s : State) : Result :=
  if cfg.stackCapacity = some s.stack.length then raise .stackOverflow s
  else .next ((s.push s.pc).setPc (zextAddr nnn))

/-- 2NNN CALL (R125). -/
def execCall (nnn : Addr12) (s : State) : Result := callWith hw nnn s

/-- 3XKK SE (R127). -/
def execSeImm (x : Nibble) (kk : Byte) (s : State) : Result := .next (s.skipIf (s.getV x == kk))

/-- 4XKK SNE (R128). -/
def execSneImm (x : Nibble) (kk : Byte) (s : State) : Result := .next (s.skipIf (s.getV x != kk))

/-- 5XY0 SE (R129). -/
def execSeReg (x y : Nibble) (s : State) : Result := .next (s.skipIf (s.getV x == s.getV y))

/-- 9XY0 SNE (R130). -/
def execSneReg (x y : Nibble) (s : State) : Result := .next (s.skipIf (s.getV x != s.getV y))

/-- BNNN JP V0 (R131). -/
def execJpV0 (nnn : Addr12) (s : State) : Result := .next (s.setPc (jumpV0Target s nnn))

/-- A word of no row (30_encoding.md R104): a no-op; its diagnostic is an output (Machine/Ports.lean). -/
def execUnrecognized (_op : Word) (s : State) : Result := .next s

end Sys2Proof.Machine
end

