-- ==== Sys2Proof/Machine/Misc.lean ====
section
/-! DEFINITION. Key, timer and memory-block instructions (43_keys_timers_memory.md). -/

namespace Sys2Proof.Machine

/-- A key skip (R230): skip if key V[X] being down is `wanted`; an index above 15 faults. -/
def keySkip (x : Nibble) (wanted : Bool) (s : State) : Result :=
  let k := s.getV x
  if k.toNat > 15 then raise .keyIndexOutOfRange s
  else .next (s.skipIf (keyIsDown s.input (k.setWidth 4) == wanted))

/-- EX9E SKP (R231). -/
def execSkp (x : Nibble) (s : State) : Result := keySkip x true s

/-- EXA1 SKNP (R232). -/
def execSknp (x : Nibble) (s : State) : Result := keySkip x false s

/-- FX07 LD Vx, DT (R234). -/
def execLdVxDt (x : Nibble) (s : State) : Result := .next (s.setV x s.dt)

/-- FX0A LD Vx, K (R235): a key that is down, or the same instruction again. -/
def execLdVxK (x : Nibble) (s : State) : Result :=
  .next (match firstKeyDown s.input with
    | some k => s.setV x (k.setWidth 8)
    | none => s.rewind)

/-- FX15 LD DT, Vx (R236). -/
def execLdDtVx (x : Nibble) (s : State) : Result := .next (s.setDt (s.getV x))

/-- FX18 LD ST, Vx (R237). -/
def execLdStVx (x : Nibble) (s : State) : Result := .next (s.setSt (s.getV x))

/-- FX1E ADD I, Vx (R239): modulo 65536, no flag. -/
def execAddI (x : Nibble) (s : State) : Result := .next (s.setI (s.i + zextByte (s.getV x)))

/-- FX29 LD F, Vx (R240). -/
def execLdF (x : Nibble) (s : State) : Result := .next (s.setI (glyphAddr hw (s.getV x)))

/-- FX33 LD B, Vx (R242). -/
def execLdB (x : Nibble) (s : State) : Result :=
  if spanOk s.i 3 then
    let v := s.getV x
    .next (s.setMem (s.mem.writeBytes s.i.toNat [hundreds v, tens v, ones v]))
  else raise .memoryOutOfBounds s

/-- The stores of FX55 (R243): V0 to V[count-1] at rising addresses from I. -/
def State.storeBlock (s : State) (count : Nat) : State :=
  s.setMem (upTo count (fun k m => m.write (s.i.toNat + k) (s.getV (BitVec.ofNat 4 k))) s.mem)

/-- The loads of FX65 (R244): V0 to V[count-1] from rising addresses at I. -/
def State.loadBlock (s : State) (count : Nat) : State :=
  upTo count (fun k t => t.setV (BitVec.ofNat 4 k) (s.mem.read (s.i.toNat + k))) s

/-- FX55 LD [I], Vx (R243): I is not changed. -/
def execStoreRegs (x : Nibble) (s : State) : Result :=
  if spanOk s.i (blockCount x) then .next (s.storeBlock (blockCount x)) else raise .memoryOutOfBounds s

/-- FX65 LD Vx, [I] (R244): I is not changed. -/
def execLoadRegs (x : Nibble) (s : State) : Result :=
  if spanOk s.i (blockCount x) then .next (s.loadBlock (blockCount x)) else raise .memoryOutOfBounds s

end Sys2Proof.Machine
end

