-- ==== Sys2Proof/Machine/Cycle.lean ====
section
/-! DEFINITION. The fetch-decode-execute-timer cycle (70_reset_and_hazards.md R324). -/

namespace Sys2Proof.Machine

/-- The fetch at PC (20_memory.md R62, R63): `none` when a byte of the word lies outside memory. No alignment (R64). -/
def State.fetch (s : State) : Option Word :=
  let a := s.pc.toNat
  if a + 1 > 0xFFF then none else some (wordOfBytes (s.mem.read a) (s.mem.read (a + 1)))

/-- `Execute` on whatever was decoded (30_encoding.md R104 for a word of no row). -/
def execDecoded (d : Decoded) (s : State) : Result :=
  match d with
  | .instr i => exec i s
  | .unrecognized op => execUnrecognized op s

/-- What a step does after `Execute`: a completed step runs the timer phase and uses up its inputs; a step
that faulted does neither (43_keys_timers_memory.md R245, 60_exceptions.md R283). -/
def State.endStep (t : State) : State :=
  match t.mode with
  | .ready => t.tick.nextInput
  | .halted _ => t

/-- `endStep` on the outcome of `Execute`. -/
def endStepOf (o : Result) : Result :=
  match o with
  | .next t => .next t.endStep
  | .fault r => .fault r
  | .refused r => .refused r

/-- `Step()` (70_reset_and_hazards.md R324). In `Halted` nothing changes (60_exceptions.md R285). -/
def stepCycle (s : State) : Result :=
  match s.mode with
  | .halted _ => .next s
  | .ready =>
    match s.fetch with
    | none => .next (s.halt .fetchOutOfBounds)
    | some op => endStepOf (execDecoded (decode op) s.advance)

/-- `s` with the bytes of `w` at PC and PC + 1, the high byte first (20_memory.md R62). -/
def State.placeWord (s : State) (w : Word) : State :=
  s.setMem (s.mem.writeBytes s.pc.toNat [(bytesOfWord w).1, (bytesOfWord w).2])

end Sys2Proof.Machine
end

