-- ==== Sys2Proof/Machine/Ports.lean ====
section
/-! DEFINITION. The CORE's ports (60_exceptions.md R300) and what the host does between steps (R302).
None of it is part of a step. -/

namespace Sys2Proof.Machine

/-- What `step()` reports (60_exceptions.md R284). -/
inductive StepResult where
  | continue
  | halted (reason : Fault)
  deriving DecidableEq, Repr

/-- Port `step_result` after a step that ended in `t` (60_exceptions.md R283, R284, R285). -/
def State.stepResult (t : State) : StepResult :=
  match t.mode with
  | .ready => .continue
  | .halted r => .halted r

/-- Port `status` (60_exceptions.md R300). -/
def State.status (s : State) : Mode := s.mode

/-- The codes of the halt reasons (60_exceptions.md R281). -/
def Fault.code : Fault → Nat
  | .stackUnderflow => 1
  | .fetchOutOfBounds => 2
  | .memoryOutOfBounds => 3
  | .keyIndexOutOfRange => 4
  | .stackOverflow => 5

/-- Port `disp_out`, flattened row by row: pixel (x, y) is element y * 64 + x (60_exceptions.md R303). -/
def State.dispOut (s : State) : Vector Bool 2048 :=
  Vector.ofFn fun n => s.disp.pixel (Fin.ofNat 64 n.val) (Fin.ofNat 32 (n.val / displayW))

/-- The event of port `diag` (30_encoding.md R111). -/
inductive Diagnostic where
  | unrecognizedOpcode (op : Word)
  deriving DecidableEq, Repr

/-- The diagnostic of executing a word, under `SYS_DIAGNOSED` (30_encoding.md R104, R111). -/
def diagnosticOf (cfg : Config) (op : Word) : Option Diagnostic :=
  match decodeWith cfg.strictDecode op with
  | .unrecognized w => some (.unrecognizedOpcode w)
  | .instr (.sys _) => if cfg.sysDiagnosed then some (.unrecognizedOpcode op) else none
  | .instr _ => none

/-- Port `diag`: the event the step from `s` emits, an output that changes no state (10_state.md R52). -/
def State.diagnostic (s : State) : Option Diagnostic :=
  match s.mode with
  | .halted _ => none
  | .ready => s.fetch.bind (diagnosticOf hw)

/-- Port `observe`: the state aggregate of 10_state.md R30 and nothing else. -/
structure Observation where
  mem : Memory
  v : Vector Byte 16
  pc : Word
  i : Word
  stack : List Word
  dt : Byte
  st : Byte
  disp : Display
  mode : Mode
  deriving DecidableEq, Repr

/-- The view of port `observe` (60_exceptions.md R300). -/
def State.observe (s : State) : Observation where
  mem := s.mem
  v := s.v
  pc := s.pc
  i := s.i
  stack := s.stack
  dt := s.dt
  st := s.st
  disp := s.disp
  mode := s.mode

/-- Ports `reset` and `rom_load` together (70_reset_and_hazards.md R320, R322): the state after reset with
the ROM at 0x200. The keyboard and the random source are not reset (10_state.md R50). A longer ROM is
refused (D25, log 27). -/
def State.hostReset (s : State) (rom : List Byte) : Result :=
  if rom.length ≤ maxRomBytes then
    .next { State.reset with
      mem := State.reset.mem.writeBytes programBase rom, inputs := s.inputs, stepNo := s.stepNo }
  else .refused .romTooLong

/-- The host fixes the inputs of one more coming step (60_exceptions.md R302, log 1). -/
def State.queueInput (s : State) (inp : StepInput) : State := { s with inputs := s.inputs ++ [inp] }

end Sys2Proof.Machine
end

