-- ==== Sys2Proof/Safety.lean ====
section
/-! DEFINITION. The terms claims use: the invariant of a run, what an instruction leaves unchanged
(10_state.md R34), when it faults (60_exceptions.md R281), and which pixels a sprite covers. -/

namespace Sys2Proof.Machine

/-- 10_state.md R40: at a step boundary PC never comes near its 16-bit wrap-around. -/
def State.PcBounded (s : State) : Prop := s.pc.toNat ≤ 0x1002

/-- 10_state.md R40: the stack holds only values 2NNN pushes, which are at most 0x1000. -/
def State.StackBounded (s : State) : Prop := ∀ a ∈ s.stack, a.toNat ≤ 0x1000

/-- The invariant of every run: canonical memory, and the bounds of 10_state.md R40. -/
structure State.Inv (s : State) : Prop where
  mem : s.mem.wf = true
  pc : s.PcBounded
  stack : s.StackBounded

/-- The components of 10_state.md R30 other than the registers V. -/
inductive Piece where
  | mem
  | pc
  | i
  | stack
  | dt
  | st
  | disp
  | mode
  deriving DecidableEq, Repr

/-- A component is the same in both states; memory byte by byte, the display pixel by pixel. -/
def Piece.Same : Piece → State → State → Prop
  | .mem, s, t => ∀ a, t.mem.read a = s.mem.read a
  | .pc, s, t => t.pc = s.pc
  | .i, s, t => t.i = s.i
  | .stack, s, t => t.stack = s.stack
  | .dt, s, t => t.dt = s.dt
  | .st, s, t => t.st = s.st
  | .disp, s, t => ∀ x y, t.disp.pixel x y = s.disp.pixel x y
  | .mode, s, t => t.mode = s.mode

/-- From `s` to `t` nothing changes but the components listed and the registers `regs` picks; the
model's own fields never do. -/
def KeepsAllBut (pieces : List Piece) (regs : Nibble → Bool) (s t : State) : Prop :=
  (∀ p, p ∉ pieces → p.Same s t) ∧ (∀ x, regs x = false → t.getV x = s.getV x) ∧
    t.inputs = s.inputs ∧ t.stepNo = s.stepNo

/-- No register. -/
def noReg : Nibble → Bool := fun _ => false

/-- The register named, and no other. -/
def onlyReg (x : Nibble) : Nibble → Bool := fun y => y == x

/-- The register named and VF. -/
def regAndFlag (x : Nibble) : Nibble → Bool := fun y => y == x || y == flagReg

/-- Every byte of memory outside the `count` bytes from `base` reads as before. -/
def KeepsMemOutside (base count : Nat) (s t : State) : Prop :=
  ∀ a, a < base ∨ base + count ≤ a → t.mem.read a = s.mem.read a

/-- The "writes" column of 10_state.md R34, for the components other than V. -/
def writtenPieces : Instr → List Piece
  | .cls => [.disp]
  | .ret | .call _ => [.pc, .stack]
  | .jp _ | .jpV0 _ | .seImm _ _ | .sneImm _ _ | .seReg _ _ | .sneReg _ _ | .skp _ | .sknp _ | .ldVxK _ => [.pc]
  | .ldI _ | .addI _ | .ldF _ => [.i]
  | .drw _ _ _ => [.disp]
  | .ldDtVx _ => [.dt]
  | .ldStVx _ => [.st]
  | .ldB _ | .storeRegs _ => [.mem]
  | .sys _ | .ldImm _ _ | .addImm _ _ | .mov _ _ | .or _ _ | .and _ _ | .xor _ _ | .add _ _ | .sub _ _ => []
  | .shr _ _ | .subn _ _ | .shl _ _ | .rnd _ _ | .ldVxDt _ | .loadRegs _ => []

/-- The "writes" column of 10_state.md R34, for V: VF as a side effect in six instructions (R32). -/
def writtenRegs : Instr → Nibble → Bool
  | .ldImm x _ | .addImm x _ | .mov x _ | .or x _ | .and x _ | .xor x _ | .rnd x _ | .ldVxDt x | .ldVxK x => onlyReg x
  | .add x _ | .sub x _ | .shr x _ | .subn x _ | .shl x _ => regAndFlag x
  | .drw _ _ _ => onlyReg flagReg
  | .loadRegs x => fun y => decide (y.toNat ≤ x.toNat)
  | .cls | .ret | .sys _ | .jp _ | .call _ | .seImm _ _ | .sneImm _ _ | .seReg _ _ | .sneReg _ _ | .ldI _ => noReg
  | .jpV0 _ | .skp _ | .sknp _ | .ldDtVx _ | .ldStVx _ | .addI _ | .ldF _ | .ldB _ | .storeRegs _ => noReg

/-- The instructions that query the keyboard (10_state.md R34). -/
def readsKeyboard : Instr → Bool
  | .skp _ | .sknp _ | .ldVxK _ => true
  | _ => false

/-- The instruction that takes a random byte (10_state.md R34). -/
def readsRandom : Instr → Bool
  | .rnd _ _ => true
  | _ => false

/-- The fault an instruction raises in `s`, as 60_exceptions.md R281 lists them (STACK_CAPACITY is none). -/
def faultOf (i : Instr) (s : State) : Option Fault :=
  match i with
  | .ret => if s.stack = [] then some .stackUnderflow else none
  | .drw _ _ n => if n ≠ 0x0#4 ∧ s.i.toNat + (n.toNat - 1) > 0xFFF then some .memoryOutOfBounds else none
  | .ldB _ => if s.i.toNat + 2 > 0xFFF then some .memoryOutOfBounds else none
  | .storeRegs x | .loadRegs x => if s.i.toNat + x.toNat > 0xFFF then some .memoryOutOfBounds else none
  | .skp x | .sknp x => if (s.getV x).toNat > 15 then some .keyIndexOutOfRange else none
  | _ => none

/-- The state an instruction leaves when it faults (60_exceptions.md R283): `s` is the state after the
fetch, so PC goes back by 2 and only the mode changes besides. -/
def haltedFrom (s : State) (r : Fault) : State := { s with pc := s.pc - 2#16, mode := .halted r }

/-- A 1 bit of the sprite of `rows` rows at `base` lies on pixel (x, y) when drawn at origin (vx, vy)
(42_address_and_display.md R203, R204). -/
def SpriteCovers (m : Memory) (base : Word) (vx vy : Byte) (rows : Nat) (x : Fin 64) (y : Fin 32) : Prop :=
  ∃ r < rows, ∃ c < 8, (vx.toNat + c) % 64 = x.val ∧ (vy.toNat + r) % 32 = y.val ∧
    (m.read (base.toNat + r)).getLsbD (7 - c) = true

end Sys2Proof.Machine
end

