-- ==== Sys2Proof/Certificates/Slice0/Obligations.lean ====
section
/-! DEFINITION. The statements for the provers. `exec i s` runs from the state after the fetch, PC = A + 2
(log 3). A docstring that names a decision Dn of 92_eei_decisions.md or a log entry says that the
clause is that choice and no word of the source. -/

open Sys2Proof Sys2Proof.Machine

/-! ## Encoding -/

/-- 30_encoding.md section 5 ("Encoding is the inverse of decoding for the 35 variants"): no bit of an
encoding is dropped. The field positions are D1 (log 10). -/
def Obligations.EncodeThenDecodeGivesTheInstructionBack : Prop :=
  ∀ i : Instr, WellFormed i = true → decode (encode i) = .instr i

/-- 30_encoding.md section 5: every word, of a row or of none, is the encoding of what it decodes to (D1, log 10). -/
def Obligations.DecodeThenEncodeGivesTheWordBack : Prop :=
  ∀ op : Word, encodeDecoded (decode op) = op

/-- 30_encoding.md section 3, the opcode map's masks (D1, D2, log 10, 11): a word decodes only to an
instruction whose row it matches, and SYS never stands for CLS or RET. -/
def Obligations.DecodedWordMatchesItsRow : Prop :=
  ∀ (op : Word) (i : Instr), decode op = .instr i →
    WellFormed i = true ∧ op &&& (opcodeRow i).mask = (opcodeRow i).value

/-- 30_encoding.md section 3: the words that decode to `Unrecognized` are exactly those listed there (D1, D2, log 10, 11). -/
def Obligations.UnrecognizedWordsAreThoseListed : Prop :=
  ∀ op op' : Word, decode op = .unrecognized op' ↔
    op' = op ∧
      ((fieldOp op = 0x5#4 ∧ fieldN op ≠ 0x0#4) ∨ (fieldOp op = 0x9#4 ∧ fieldN op ≠ 0x0#4) ∨
       (fieldOp op = 0x8#4 ∧ fieldN op ∈ [0x8#4, 0x9#4, 0xA#4, 0xB#4, 0xC#4, 0xD#4, 0xF#4]) ∨
       (fieldOp op = 0xE#4 ∧ fieldKK op ∉ [0x9E#8, 0xA1#8]) ∨
       (fieldOp op = 0xF#4 ∧
         fieldKK op ∉ [0x07#8, 0x0A#8, 0x15#8, 0x18#8, 0x1E#8, 0x29#8, 0x33#8, 0x55#8, 0x65#8]))

/-- The worked decode examples of 30_encoding.md section 5 (D1, log 10). -/
def Obligations.WorkedDecodeExamples : Prop :=
  decodeBytes 0x81#8 0x24#8 = .instr (.add 1 2) ∧ decodeBytes 0xD0#8 0x1F#8 = .instr (.drw 0 1 15) ∧
  decodeBytes 0xF3#8 0x65#8 = .instr (.loadRegs 3) ∧ decodeBytes 0x00#8 0xE0#8 = .instr .cls ∧
  decodeBytes 0x01#8 0x23#8 = .instr (.sys 0x123) ∧ decodeBytes 0x51#8 0x21#8 = .unrecognized 0x5121 ∧
  decodeBytes 0xE1#8 0x9F#8 = .unrecognized 0xE19F ∧ decodeBytes 0x80#8 0x0F#8 = .unrecognized 0x800F ∧
  decodeBytes 0xB3#8 0xFF#8 = .instr (.jpV0 0x3FF)

/-! ## Reset -/

/-- 10_state.md R41, and the start values the source gives for the stack, the timers and the display. -/
def Obligations.ResetGivesTheStartValuesOfTheSource : Prop :=
  State.reset.pc = 0x200#16 ∧ State.reset.stack = [] ∧ State.reset.dt = 0#8 ∧ State.reset.st = 0#8 ∧
  (∀ x y, State.reset.disp.pixel x y = false)

/-- The reset values the spec chose where the source is silent: registers, I and unused memory are 0 (D12,
log 6, 8), the font bytes are the standard table (D11, log 7), and the mode is Ready (inferred in
70_reset_and_hazards.md section 1: "because Halted is reached only by a fault"). -/
def Obligations.ResetGivesTheValuesTheSpecChose : Prop :=
  (∀ x, State.reset.getV x = 0#8) ∧ State.reset.i = 0#16 ∧ State.reset.mode = .ready ∧
  (∀ a, 80 ≤ a → State.reset.mem.read a = 0#8) ∧
  (List.range 80).map State.reset.mem.read =
    [0xF0, 0x90, 0x90, 0x90, 0xF0] ++ [0x20, 0x60, 0x20, 0x20, 0x70] ++ [0xF0, 0x10, 0xF0, 0x80, 0xF0] ++
    [0xF0, 0x10, 0xF0, 0x10, 0xF0] ++ [0x90, 0x90, 0xF0, 0x10, 0x10] ++ [0xF0, 0x80, 0xF0, 0x10, 0xF0] ++
    [0xF0, 0x80, 0xF0, 0x90, 0xF0] ++ [0xF0, 0x10, 0x20, 0x40, 0x40] ++ [0xF0, 0x90, 0xF0, 0x90, 0xF0] ++
    [0xF0, 0x90, 0xF0, 0x10, 0xF0] ++ [0xF0, 0x90, 0xF0, 0x90, 0x90] ++ [0xE0, 0x90, 0xE0, 0x90, 0xE0] ++
    [0xF0, 0x80, 0x80, 0x80, 0xF0] ++ [0xE0, 0x90, 0x90, 0x90, 0xE0] ++ [0xF0, 0x80, 0xF0, 0x80, 0xF0] ++
    [0xF0, 0x80, 0xF0, 0x80, 0x80]

/-- 70_reset_and_hazards.md section 1: the host's reset copies the ROM to 0x200 and leaves everything else
at its reset value, from any state; a longer ROM is refused (D25, log 27). -/
def Obligations.HostResetLoadsTheRomVerbatim : Prop :=
  ∀ (s : State) (rom : List Byte),
    (rom.length ≤ 3584 → ∃ t, s.hostReset rom = .next t ∧
      (∀ (k : Nat) (hk : k < rom.length), t.mem.read (0x200 + k) = rom[k]) ∧
      (∀ a, a < 0x200 ∨ 0x200 + rom.length ≤ a → t.mem.read a = State.reset.mem.read a) ∧
      { t.observe with mem := [] } = { State.reset.observe with mem := [] } ∧ t.Inv) ∧
    (3584 < rom.length → s.hostReset rom = .refused .romTooLong)

/-- The invariant holds at reset. -/
def Obligations.ResetMeetsTheInvariant : Prop := State.reset.Inv

/-! ## The step -/

/-- 70_reset_and_hazards.md section 2: a step whose two bytes decode to an instruction is `exec` of it from
PC + 2; a completed one then counts the timers down and uses up its inputs (log 1), a faulted one does
neither (D18, log 21). -/
def Obligations.StepRunsTheDecodedInstruction : Prop :=
  ∀ (s : State) (i : Instr), s.mode = .ready → s.pc.toNat + 1 ≤ 0xFFF →
    decodeBytes (s.mem.read s.pc.toNat) (s.mem.read (s.pc.toNat + 1)) = .instr i → WellFormed i = true →
    ∃ t, exec i { s with pc := s.pc + 2#16 } = .next t ∧
      (t.mode = .ready → step s = .next { t with
        dt := decrement t.dt, st := decrement t.st, inputs := t.inputs.tail, stepNo := t.stepNo + 1 }) ∧
      (∀ r, t.mode = .halted r → step s = .next t)

/-- 30_encoding.md R104: a word of no row is a no-op; PC advances, the timer phase runs, the mode stays Ready,
and the diagnostic is emitted. -/
def Obligations.UnrecognizedWordIsANoOp : Prop :=
  ∀ (s : State) (op : Word), s.mode = .ready → s.pc.toNat + 1 ≤ 0xFFF →
    decodeBytes (s.mem.read s.pc.toNat) (s.mem.read (s.pc.toNat + 1)) = .unrecognized op →
    s.diagnostic = some (.unrecognizedOpcode op) ∧
    ∃ t, step s = .next t ∧
      t.observe = { s.observe with pc := s.pc + 2#16, dt := decrement s.dt, st := decrement s.st }

/-- 20_memory.md R63: a fetch one of whose bytes lies outside memory halts the machine, on the unbounded sum. -/
def Obligations.FetchOutsideMemoryHalts : Prop :=
  ∀ s : State, s.mode = .ready → s.pc.toNat + 1 > 0xFFF →
    ∃ t, step s = .next t ∧ t.mode = .halted .fetchOutOfBounds ∧ t.stepResult = .halted .fetchOutOfBounds

/-- 60_exceptions.md section 1, decision D13 (log 25): a step that faults leaves its start state, PC
included, with the mode Halted; the timer phase does not run. -/
def Obligations.FaultingStepKeepsItsStartState : Prop :=
  ∀ (s t : State) (r : Fault), s.mode = .ready → step s = .next t → t.mode = .halted r →
    t = { s with mode := .halted r }

/-- 60_exceptions.md section 1, decision D14 (log 2): a step in Halted changes nothing and reports the halt again. -/
def Obligations.HaltedStepChangesNothing : Prop :=
  ∀ (s : State) (r : Fault), s.mode = .halted r → step s = .next s ∧ s.stepResult = .halted r

/-- 43_keys_timers_memory.md section 4 ("each step decrements both timers by 1, saturating at 0"), on the
completed steps (D18, log 21): every word but FX15 counts DT down, every word but FX18 counts ST down. -/
def Obligations.CompletedStepCountsTheTimersDown : Prop :=
  ∀ (s t : State), s.mode = .ready → step s = .next t → t.mode = .ready →
    ((∀ x, decodeBytes (s.mem.read s.pc.toNat) (s.mem.read (s.pc.toNat + 1)) ≠ .instr (.ldDtVx x)) →
      t.dt.toNat = s.dt.toNat - 1) ∧
    ((∀ x, decodeBytes (s.mem.read s.pc.toNat) (s.mem.read (s.pc.toNat + 1)) ≠ .instr (.ldStVx x)) →
      t.st.toNat = s.st.toNat - 1)

/-- 43_keys_timers_memory.md R233: a timer written in a step is counted down once in the same step, and FX07
reads the value the previous step left. -/
def Obligations.TimerWritesCountDownInTheSameStep : Prop :=
  ∀ (s : State) (x : Nibble), s.mode = .ready → s.pc.toNat + 1 ≤ 0xFFF →
    (decodeBytes (s.mem.read s.pc.toNat) (s.mem.read (s.pc.toNat + 1)) = .instr (.ldDtVx x) →
      ∃ t, step s = .next t ∧ t.dt.toNat = (s.getV x).toNat - 1) ∧
    (decodeBytes (s.mem.read s.pc.toNat) (s.mem.read (s.pc.toNat + 1)) = .instr (.ldStVx x) →
      ∃ t, step s = .next t ∧ t.st.toNat = (s.getV x).toNat - 1) ∧
    (decodeBytes (s.mem.read s.pc.toNat) (s.mem.read (s.pc.toNat + 1)) = .instr (.ldVxDt x) →
      ∃ t, step s = .next t ∧ t.getV x = s.dt)

/-- The model's form of a step (log 2): no state stops the model, and no instruction is refused. -/
def Obligations.EveryStepAnswersANextState : Prop :=
  (∀ s : State, ∃ t, step s = .next t) ∧ ∀ (i : Instr) (s : State), ∃ t, exec i s = .next t

/-- Every step keeps the invariant: the memory stays canonical (log 6) and the bounds of 10_state.md section
3 hold ("PC never reaches a value at which 16-bit wrap-around could occur", derived there). -/
def Obligations.StepKeepsTheInvariant : Prop :=
  ∀ s t : State, s.Inv → step s = .next t → t.Inv

/-- 60_exceptions.md R306: the result of a step is a function of the state aggregate, `key_down`, the
`FirstKeyDown` answer and `rand_byte` alone. -/
def Obligations.StepDependsOnStateAndInputsAlone : Prop :=
  ∀ s s' t t' : State, s.observe = s'.observe → s.input.keyDown = s'.input.keyDown →
    firstKeyDown s.input = firstKeyDown s'.input → s.input.randByte = s'.input.randByte →
    step s = .next t → step s' = .next t' → t.observe = t'.observe ∧ t.stepResult = t'.stepResult

/-- The "reads" column of 10_state.md section 2 (derived there): only SKP, SKNP and LD Vx, K see the
keyboard, and only RND sees the random byte. -/
def Obligations.OnlyKeyAndRandomInstructionsSeeTheInputs : Prop :=
  ∀ (i : Instr) (s s' t t' : State), s.observe = s'.observe →
    (readsKeyboard i = true →
      s.input.keyDown = s'.input.keyDown ∧ firstKeyDown s.input = firstKeyDown s'.input) →
    (readsRandom i = true → s.input.randByte = s'.input.randByte) →
    exec i s = .next t → exec i s' = .next t' → t.observe = t'.observe

/-- 60_exceptions.md section 1, the list of fatal causes (D16, D21, log 19, 24): an instruction faults exactly
when the list says, with the reason listed, and otherwise the machine stays Ready. -/
def Obligations.InstructionsFaultExactlyAsListed : Prop :=
  ∀ (i : Instr) (s : State), s.mode = .ready →
    (∀ r, faultOf i s = some r → exec i s = .next (haltedFrom s r)) ∧
    (faultOf i s = none → ∃ t, exec i s = .next t ∧ t.mode = .ready)

/-- The "writes" column of 10_state.md section 2 (derived there, D6 to D9, log 15, 16): an instruction that
does not fault changes nothing else. -/
def Obligations.InstructionsWriteOnlyWhatTheTableLists : Prop :=
  ∀ (i : Instr) (s t : State), s.mode = .ready → exec i s = .next t → t.mode = .ready →
    KeepsAllBut (writtenPieces i) (writtenRegs i) s t

/-- 20_memory.md section 3 and 10_state.md section 4: a step changes a byte of memory only by FX33 or FX55,
within the bytes they store to; a pixel only by CLS or DRW; the stack only by RET or CALL; I only by
LD I, ADD I or LD F (D9, log 16). -/
def Obligations.StepChangesHaveTheirInstruction : Prop :=
  ∀ s t : State, step s = .next t →
    let d := decodeBytes (s.mem.read s.pc.toNat) (s.mem.read (s.pc.toNat + 1))
    (∀ a, t.mem.read a ≠ s.mem.read a →
      (∃ x, d = .instr (.ldB x) ∧ s.i.toNat ≤ a ∧ a < s.i.toNat + 3) ∨
      (∃ x, d = .instr (.storeRegs x) ∧ s.i.toNat ≤ a ∧ a ≤ s.i.toNat + x.toNat)) ∧
    (∀ x y, t.disp.pixel x y ≠ s.disp.pixel x y → d = .instr .cls ∨ ∃ vx vy n, d = .instr (.drw vx vy n)) ∧
    (t.stack ≠ s.stack → d = .instr .ret ∨ ∃ nnn, d = .instr (.call nnn)) ∧
    (t.i ≠ s.i → (∃ nnn, d = .instr (.ldI nnn)) ∨ (∃ x, d = .instr (.addI x)) ∨ ∃ x, d = .instr (.ldF x))

/-! ## System and control flow -/

/-- 40_system_and_flow.md R121. -/
def Obligations.ClsTurnsEveryPixelOff : Prop :=
  ∀ s : State, ∃ t, exec .cls s = .next t ∧ (∀ x y, t.disp.pixel x y = false) ∧ KeepsAllBut [.disp] noReg s t

/-- 40_system_and_flow.md section 2: both cases. `s.pc` is A + 2, so the faulted state has PC = A. That the
faulted step leaves exactly its start state is decision D13 (log 25); that the list's head is the top of
the stack is the model's layout (log 4). -/
def Obligations.RetPopsOrHaltsOnAnEmptyStack : Prop :=
  ∀ s : State,
    (∀ a rest, s.stack = a :: rest →
      ∃ t, exec .ret s = .next t ∧ t.pc = a ∧ t.stack = rest ∧ KeepsAllBut [.pc, .stack] noReg s t) ∧
    (s.stack = [] → exec .ret s = .next (haltedFrom s .stackUnderflow))

/-- 40_system_and_flow.md section 2: SYS does nothing. That 0NNN is SYS is decision D3 (log 12). -/
def Obligations.SysChangesNothing : Prop :=
  ∀ (nnn : Addr12) (s : State), ∃ t, exec (.sys nnn) s = .next t ∧ KeepsAllBut [] noReg s t

/-- 40_system_and_flow.md R124. -/
def Obligations.JpSetsThePc : Prop :=
  ∀ (nnn : Addr12) (s : State), ∃ t, exec (.jp nnn) s = .next t ∧ t.pc.toNat = nnn.toNat ∧ KeepsAllBut [.pc] noReg s t

/-- 40_system_and_flow.md section 3: CALL pushes the post-increment PC and jumps. The overflow of a finite
stack is decision D21 (log 24), stated of `callWith` at any capacity. -/
def Obligations.CallPushesTheReturnAddress : Prop :=
  (∀ (nnn : Addr12) (s : State), ∃ t, exec (.call nnn) s = .next t ∧
    t.stack = s.pc :: s.stack ∧ t.pc.toNat = nnn.toNat ∧ KeepsAllBut [.pc, .stack] noReg s t) ∧
  ∀ (cfg : Config) (cap : Nat) (nnn : Addr12) (s : State), cfg.stackCapacity = some cap →
    (s.stack.length = cap → callWith cfg nnn s = .next (haltedFrom s .stackOverflow)) ∧
    (s.stack.length ≠ cap → callWith cfg nnn s = exec (.call nnn) s)

/-- The source's section 8 example ("Call(0x300) then Return restores the exact program counter value saved
before the call"), for any subroutine that leaves the stack as CALL left it. -/
def Obligations.CallThenReturnRestoresThePc : Prop :=
  ∀ (nnn : Addr12) (s t u : State), exec (.call nnn) s = .next t → u.stack = t.stack →
    ∃ w, exec .ret u = .next w ∧ w.pc = s.pc ∧ w.stack = s.stack

/-- 40_system_and_flow.md R127 to R130: each skip adds 2 to PC exactly when its condition holds. -/
def Obligations.SkipsAddTwoExactlyOnTheirCondition : Prop :=
  ∀ (x y : Nibble) (kk : Byte) (s : State),
    (∃ t, exec (.seImm x kk) s = .next t ∧ KeepsAllBut [.pc] noReg s t ∧
      (s.getV x = kk → t.pc = s.pc + 2#16) ∧ (s.getV x ≠ kk → t.pc = s.pc)) ∧
    (∃ t, exec (.sneImm x kk) s = .next t ∧ KeepsAllBut [.pc] noReg s t ∧
      (s.getV x ≠ kk → t.pc = s.pc + 2#16) ∧ (s.getV x = kk → t.pc = s.pc)) ∧
    (∃ t, exec (.seReg x y) s = .next t ∧ KeepsAllBut [.pc] noReg s t ∧
      (s.getV x = s.getV y → t.pc = s.pc + 2#16) ∧ (s.getV x ≠ s.getV y → t.pc = s.pc)) ∧
    (∃ t, exec (.sneReg x y) s = .next t ∧ KeepsAllBut [.pc] noReg s t ∧
      (s.getV x ≠ s.getV y → t.pc = s.pc + 2#16) ∧ (s.getV x = s.getV y → t.pc = s.pc))

/-- 40_system_and_flow.md R131. -/
def Obligations.JpV0WrapsIntoMemory : Prop :=
  ∀ (nnn : Addr12) (s : State), ∃ t, exec (.jpV0 nnn) s = .next t ∧
    t.pc.toNat = (nnn.toNat + (s.getV 0x0#4).toNat) % 4096 ∧ KeepsAllBut [.pc] noReg s t

/-! ## Registers and ALU -/

/-- 41_alu.md R163 and R165. -/
def Obligations.LoadImmediateAndMoveSetOneRegister : Prop :=
  ∀ (x y : Nibble) (kk : Byte) (s : State),
    (∃ t, exec (.ldImm x kk) s = .next t ∧ t.getV x = kk ∧ KeepsAllBut [] (onlyReg x) s t) ∧
    (∃ t, exec (.mov x y) s = .next t ∧ t.getV x = s.getV y ∧ KeepsAllBut [] (onlyReg x) s t)

/-- 41_alu.md section 2: 7XKK wraps. That it leaves VF alone (unless X = 15) is decision D7 (log 15). -/
def Obligations.AddImmediateWrapsWithoutAFlag : Prop :=
  ∀ (x : Nibble) (kk : Byte) (s : State), ∃ t, exec (.addImm x kk) s = .next t ∧
    (t.getV x).toNat = ((s.getV x).toNat + kk.toNat) % 256 ∧ KeepsAllBut [] (onlyReg x) s t

/-- 41_alu.md section 3: OR, AND and XOR bit by bit. That they leave VF alone (unless X = 15) is decision D6 (log 15). -/
def Obligations.LogicInstructionsWorkBitByBit : Prop :=
  ∀ (x y : Nibble) (s : State),
    (∃ t, exec (.or x y) s = .next t ∧ KeepsAllBut [] (onlyReg x) s t ∧
      ∀ k, (t.getV x).getLsbD k = ((s.getV x).getLsbD k || (s.getV y).getLsbD k)) ∧
    (∃ t, exec (.and x y) s = .next t ∧ KeepsAllBut [] (onlyReg x) s t ∧
      ∀ k, (t.getV x).getLsbD k = ((s.getV x).getLsbD k && (s.getV y).getLsbD k)) ∧
    (∃ t, exec (.xor x y) s = .next t ∧ KeepsAllBut [] (onlyReg x) s t ∧
      ∀ k, (t.getV x).getLsbD k = ((s.getV x).getLsbD k ^^ (s.getV y).getLsbD k))

/-- 41_alu.md section 3: sum, difference and reverse difference modulo 256, then the flag in VF. For X = 15
VF keeps the flag: decision D4 (log 13). -/
def Obligations.AddSubSubnGiveTheResultAndThenTheFlag : Prop :=
  ∀ (x y : Nibble) (s : State),
    (∃ t, exec (.add x y) s = .next t ∧ KeepsAllBut [] (regAndFlag x) s t ∧
      (x ≠ 0xF#4 → (t.getV x).toNat = ((s.getV x).toNat + (s.getV y).toNat) % 256) ∧
      t.getV 0xF#4 = if (s.getV x).toNat + (s.getV y).toNat > 255 then 1#8 else 0#8) ∧
    (∃ t, exec (.sub x y) s = .next t ∧ KeepsAllBut [] (regAndFlag x) s t ∧
      (x ≠ 0xF#4 → (t.getV x).toNat = ((s.getV x).toNat + 256 - (s.getV y).toNat) % 256) ∧
      t.getV 0xF#4 = if (s.getV x).toNat ≥ (s.getV y).toNat then 1#8 else 0#8) ∧
    (∃ t, exec (.subn x y) s = .next t ∧ KeepsAllBut [] (regAndFlag x) s t ∧
      (x ≠ 0xF#4 → (t.getV x).toNat = ((s.getV y).toNat + 256 - (s.getV x).toNat) % 256) ∧
      t.getV 0xF#4 = if (s.getV y).toNat ≥ (s.getV x).toNat then 1#8 else 0#8)

/-- 41_alu.md section 3: the shifts work on V[X] (decision D5, log 14) and VF gets the bit shifted out, also
for X = 15 (decision D4, log 13). -/
def Obligations.ShiftsPutTheBitShiftedOutInVf : Prop :=
  ∀ (x y : Nibble) (s : State),
    (∃ t, exec (.shr x y) s = .next t ∧ KeepsAllBut [] (regAndFlag x) s t ∧
      (x ≠ 0xF#4 → (t.getV x).toNat = (s.getV x).toNat / 2) ∧ (t.getV 0xF#4).toNat = (s.getV x).toNat % 2) ∧
    (∃ t, exec (.shl x y) s = .next t ∧ KeepsAllBut [] (regAndFlag x) s t ∧
      (x ≠ 0xF#4 → (t.getV x).toNat = (s.getV x).toNat * 2 % 256) ∧ (t.getV 0xF#4).toNat = (s.getV x).toNat / 128)

/-- 41_alu.md section 4: RND masks the step's random byte, a draw (decision D19, log 22). The statement
holds for every draw: the byte lined up by the host where there is one, a free value where not. -/
def Obligations.RndMasksTheRandomByte : Prop :=
  ∀ (x : Nibble) (kk : Byte) (s : State), ∃ t, exec (.rnd x kk) s = .next t ∧ KeepsAllBut [] (onlyReg x) s t ∧
    t.getV x = s.input.randByte &&& kk ∧ (∀ k, kk.getLsbD k = false → (t.getV x).getLsbD k = false) ∧
    (∀ inp rest, s.inputs = inp :: rest → t.getV x = inp.randByte &&& kk)

/-! ## Address register and display -/

/-- 42_address_and_display.md R201. -/
def Obligations.LdISetsTheAddressRegister : Prop :=
  ∀ (nnn : Addr12) (s : State), ∃ t, exec (.ldI nnn) s = .next t ∧ t.i.toNat = nnn.toNat ∧ KeepsAllBut [.i] noReg s t

/-- 42_address_and_display.md section 2: a toggle changes its pixel and no other, and reports whether the pixel
went from on to off. -/
def Obligations.ToggleChangesOnePixelAndReportsOnToOff : Prop :=
  ∀ (d : Display) (x : Fin 64) (y : Fin 32),
    let p := (Canvas.mk d false).toggle x y
    p.disp.pixel x y = (!d.pixel x y) ∧ p.collision = d.pixel x y ∧
    ∀ x' y', (x' ≠ x ∨ y' ≠ y) → p.disp.pixel x' y' = d.pixel x' y'

/-- 42_address_and_display.md sections 2 and 3 ("the result equals XORing the whole sprite at once", derived
there): DRW's loops are one XOR of the sprite, wrapped at both edges, and VF is 1 exactly when a pixel
goes from on to off. DXY0 draws no row (decision D15, log 18); the check is decision D23 (log 25). -/
def Obligations.DrwXorsTheWholeSpriteAtOnce : Prop :=
  ∀ (x y n : Nibble) (s : State), (n = 0x0#4 ∨ s.i.toNat + (n.toNat - 1) ≤ 0xFFF) →
    ∃ t, exec (.drw x y n) s = .next t ∧ KeepsAllBut [.disp] (onlyReg 0xF#4) s t ∧
      (∀ px py, SpriteCovers s.mem s.i (s.getV x) (s.getV y) n.toNat px py →
        t.disp.pixel px py = !s.disp.pixel px py) ∧
      (∀ px py, ¬ SpriteCovers s.mem s.i (s.getV x) (s.getV y) n.toNat px py →
        t.disp.pixel px py = s.disp.pixel px py) ∧
      ((∃ px py, SpriteCovers s.mem s.i (s.getV x) (s.getV y) n.toNat px py ∧ s.disp.pixel px py = true) →
        t.getV 0xF#4 = 1#8) ∧
      ((∀ px py, SpriteCovers s.mem s.i (s.getV x) (s.getV y) n.toNat px py → s.disp.pixel px py = false) →
        t.getV 0xF#4 = 0#8)

/-- 42_address_and_display.md section 3 (derived there): the same sprite drawn twice at the same origin
restores the display. The second draw collides exactly when a covered pixel was off at the start: the
section says "if the sprite has any 1 bit", which is this on a display that is off there (log 32). -/
def Obligations.DrawingTwiceRestoresTheDisplay : Prop :=
  ∀ (x y n : Nibble) (s t u : State), (n = 0x0#4 ∨ s.i.toNat + (n.toNat - 1) ≤ 0xFFF) →
    exec (.drw x y n) s = .next t → t.getV x = s.getV x → t.getV y = s.getV y →
    exec (.drw x y n) t = .next u →
    (∀ px py, u.disp.pixel px py = s.disp.pixel px py) ∧
    (u.getV 0xF#4 = 1#8 ↔
      ∃ px py, SpriteCovers s.mem s.i (s.getV x) (s.getV y) n.toNat px py ∧ s.disp.pixel px py = false)

/-- 20_memory.md section 3, decision D23 (log 25): an I-relative access that would leave memory halts the
machine before any effect. -/
def Obligations.AccessOutsideMemoryHaltsWithoutEffect : Prop :=
  ∀ (x y n : Nibble) (s : State),
    (n ≠ 0x0#4 → s.i.toNat + (n.toNat - 1) > 0xFFF → exec (.drw x y n) s = .next (haltedFrom s .memoryOutOfBounds)) ∧
    (s.i.toNat + 2 > 0xFFF → exec (.ldB x) s = .next (haltedFrom s .memoryOutOfBounds)) ∧
    (s.i.toNat + x.toNat > 0xFFF → exec (.storeRegs x) s = .next (haltedFrom s .memoryOutOfBounds)) ∧
    (s.i.toNat + x.toNat > 0xFFF → exec (.loadRegs x) s = .next (haltedFrom s .memoryOutOfBounds))

/-! ## Keys, timers and memory blocks -/

/-- 43_keys_timers_memory.md section 1: SKP skips when the key V[X] is down, SKNP when it is up. An index
above 15 halts: decision D16 (log 19). -/
def Obligations.KeySkipsFollowTheKeyState : Prop :=
  ∀ (x : Nibble) (s : State),
    ((s.getV x).toNat ≤ 15 →
      (∃ t, exec (.skp x) s = .next t ∧ KeepsAllBut [.pc] noReg s t ∧
        t.pc = if s.input.keyDown.getLsbD (s.getV x).toNat then s.pc + 2#16 else s.pc) ∧
      (∃ t, exec (.sknp x) s = .next t ∧ KeepsAllBut [.pc] noReg s t ∧
        t.pc = if s.input.keyDown.getLsbD (s.getV x).toNat then s.pc else s.pc + 2#16)) ∧
    ((s.getV x).toNat > 15 →
      exec (.skp x) s = .next (haltedFrom s .keyIndexOutOfRange) ∧
      exec (.sknp x) s = .next (haltedFrom s .keyIndexOutOfRange))

/-- 43_keys_timers_memory.md section 2: with a key down FX0A stores the index of one that is down, any one
(decision D17, log 20); with none down it goes back to itself. -/
def Obligations.KeyWaitStoresAKeyOrRepeats : Prop :=
  ∀ (x : Nibble) (s : State),
    (s.input.keyDown ≠ 0#16 → ∃ t, exec (.ldVxK x) s = .next t ∧ KeepsAllBut [] (onlyReg x) s t ∧
      (t.getV x).toNat ≤ 15 ∧ s.input.keyDown.getLsbD (t.getV x).toNat = true) ∧
    (s.input.keyDown = 0#16 → ∃ t, exec (.ldVxK x) s = .next t ∧ KeepsAllBut [.pc] noReg s t ∧ t.pc = s.pc - 2#16)

/-- 60_exceptions.md section 6, decision D17 (log 20): `FirstKeyDown` is none exactly with every key up, names
only keys that are down, and can name each of them. -/
def Obligations.FirstKeyDownCanBeAnyKeyThatIsDown : Prop :=
  ∀ (keys : BitVec 16) (rand : Byte),
    (∀ pick, firstKeyDown ⟨keys, pick, rand⟩ = none ↔ keys = 0#16) ∧
    (∀ pick j, firstKeyDown ⟨keys, pick, rand⟩ = some j → keys.getLsbD j.toNat = true) ∧
    (∀ j : Nibble, keys.getLsbD j.toNat = true → ∃ pick, firstKeyDown ⟨keys, pick, rand⟩ = some j)

/-- 43_keys_timers_memory.md R234, R236 and R237 (the timer phase of the step comes after). -/
def Obligations.TimerInstructionsMoveTheValue : Prop :=
  ∀ (x : Nibble) (s : State),
    (∃ t, exec (.ldVxDt x) s = .next t ∧ t.getV x = s.dt ∧ KeepsAllBut [] (onlyReg x) s t) ∧
    (∃ t, exec (.ldDtVx x) s = .next t ∧ t.dt = s.getV x ∧ KeepsAllBut [.dt] noReg s t) ∧
    (∃ t, exec (.ldStVx x) s = .next t ∧ t.st = s.getV x ∧ KeepsAllBut [.st] noReg s t)

/-- 43_keys_timers_memory.md section 3: I plus V[X]. The wrap at 16 bits and the untouched VF are decision D8 (log 15). -/
def Obligations.AddIWrapsAtSixteenBits : Prop :=
  ∀ (x : Nibble) (s : State), ∃ t, exec (.addI x) s = .next t ∧
    t.i.toNat = (s.i.toNat + (s.getV x).toNat) % 65536 ∧ KeepsAllBut [.i] noReg s t

/-- 43_keys_timers_memory.md section 3: FX29 points I at 5 * V[X], not masked, glyph d at 5 * d: decision D10 (log 17). -/
def Obligations.LdFPointsAtTheGlyph : Prop :=
  ∀ (x : Nibble) (s : State), ∃ t, exec (.ldF x) s = .next t ∧
    t.i.toNat = 5 * (s.getV x).toNat ∧ KeepsAllBut [.i] noReg s t

/-- 43_keys_timers_memory.md section 3: three decimal digits at I, I + 1 and I + 2, or a halt. That the halt
keeps the whole start state, on the check of the unbounded sum, is decisions D13 and D23 (log 25). -/
def Obligations.BcdWritesThreeDecimalDigits : Prop :=
  ∀ (x : Nibble) (s : State), s.mem.wf = true →
    (s.i.toNat + 2 ≤ 0xFFF → ∃ t, exec (.ldB x) s = .next t ∧ KeepsAllBut [.mem] noReg s t ∧
      KeepsMemOutside s.i.toNat 3 s t ∧
      (t.mem.read s.i.toNat).toNat = (s.getV x).toNat / 100 ∧
      (t.mem.read (s.i.toNat + 1)).toNat = (s.getV x).toNat / 10 % 10 ∧
      (t.mem.read (s.i.toNat + 2)).toNat = (s.getV x).toNat % 10) ∧
    (s.i.toNat + 2 > 0xFFF → exec (.ldB x) s = .next (haltedFrom s .memoryOutOfBounds))

/-- 43_keys_timers_memory.md section 3: FX55 stores V0 to V[X] from I on. That I stays is decision D9 (log 16). -/
def Obligations.StoreRegsWritesTheBlock : Prop :=
  ∀ (x : Nibble) (s : State), s.mem.wf = true → s.i.toNat + x.toNat ≤ 0xFFF →
    ∃ t, exec (.storeRegs x) s = .next t ∧ KeepsAllBut [.mem] noReg s t ∧
      KeepsMemOutside s.i.toNat (x.toNat + 1) s t ∧
      ∀ k : Nibble, k.toNat ≤ x.toNat → t.mem.read (s.i.toNat + k.toNat) = s.getV k

/-- 43_keys_timers_memory.md section 3: FX65 loads V0 to V[X] from I on and no other register, or halts. That I
stays is decision D9 (log 16); that the halt keeps the whole start state is D13 and D23 (log 25). -/
def Obligations.LoadRegsReadsTheBlock : Prop :=
  ∀ (x : Nibble) (s : State),
    (s.i.toNat + x.toNat ≤ 0xFFF → ∃ t, exec (.loadRegs x) s = .next t ∧
      KeepsAllBut [] (fun k => decide (k.toNat ≤ x.toNat)) s t ∧
      ∀ k : Nibble, k.toNat ≤ x.toNat → t.getV k = s.mem.read (s.i.toNat + k.toNat)) ∧
    (s.i.toNat + x.toNat > 0xFFF → exec (.loadRegs x) s = .next (haltedFrom s .memoryOutOfBounds))

/-- 43_keys_timers_memory.md section 4 (derived there): FX55, then FX65 from the same I with the stored bytes
unwritten between, gives the registers back. -/
def Obligations.StoreThenLoadGivesTheRegistersBack : Prop :=
  ∀ (x : Nibble) (s t u w : State), s.mem.wf = true → s.i.toNat + x.toNat ≤ 0xFFF →
    exec (.storeRegs x) s = .next t → u.i = s.i →
    (∀ k : Nibble, k.toNat ≤ x.toNat → u.mem.read (s.i.toNat + k.toNat) = t.mem.read (s.i.toNat + k.toNat)) →
    exec (.loadRegs x) u = .next w → ∀ k : Nibble, k.toNat ≤ x.toNat → w.getV k = s.getV k

/-- 20_memory.md section 4, decision D29 (log 29): a word FX55 stores is the word the next fetch at that
address reads, its high byte from V0. -/
def Obligations.StoredWordIsFetchedNext : Prop :=
  ∀ (x : Nibble) (s t : State), s.mem.wf = true → 1 ≤ x.toNat → s.i.toNat + x.toNat ≤ 0xFFF →
    exec (.storeRegs x) s = .next t →
    { t with pc := s.i }.fetch = some (wordOfBytes (s.getV 0x0#4) (s.getV 0x1#4))

/-- The canonical form is one form (log 6): memories in it that read alike are equal data. -/
def Obligations.CanonicalMemoriesThatReadAlikeAreEqual : Prop :=
  ∀ m m' : Memory, m.wf = true → m'.wf = true → (∀ a, m.read a = m'.read a) → m = m'

/-- 60_exceptions.md section 6, decision D27 (log 26): the flattened export is row by row. -/
def Obligations.DisplayExportIsRowMajor : Prop :=
  ∀ (s : State) (x : Fin 64) (y : Fin 32), s.dispOut.toList[y.val * 64 + x.val]? = some (s.disp.pixel x y)
end

