-- ==== Sys2Proof/Laws/Decode.lean ====
section
/-! SUPPORT. The fields of the words the encoder builds, and the words the fields build: what the round
trips rest on (30_encoding.md R92, R93, R108). -/

namespace Sys2Proof

/-- A bit of a field is a bit of the word. -/
theorem getLsbD_field (op : Word) (lo n k : Nat) :
    (op.extractLsb' lo n).getLsbD k = (decide (k < n) && op.getLsbD (lo + k)) := by
  simp [BitVec.getLsbD_extractLsb']

/-! A nibble before twelve bits. -/

@[simp] theorem fieldOp_append (o : Nibble) (r : BitVec 12) : fieldOp (o ++ r) = o := by
  apply BitVec.eq_of_getLsbD_eq
  intro k hk
  rw [fieldOp, getLsbD_field, BitVec.getLsbD_append]
  simp [hk]

@[simp] theorem fieldNNN_append (o : Nibble) (r : BitVec 12) : fieldNNN (o ++ r) = r := by
  apply BitVec.eq_of_getLsbD_eq
  intro k hk
  rw [fieldNNN, getLsbD_field, BitVec.getLsbD_append]
  simp [hk]

/-- X is the high nibble of the twelve low bits. -/
theorem fieldX_append (o : Nibble) (r : BitVec 12) : fieldX (o ++ r) = r.extractLsb' 8 4 := by
  apply BitVec.eq_of_getLsbD_eq
  intro k hk
  rw [fieldX, getLsbD_field, BitVec.getLsbD_append, BitVec.getLsbD_extractLsb']
  simp [hk, show 8 + k < 12 by omega]

theorem fieldKK_append (o : Nibble) (r : BitVec 12) : fieldKK (o ++ r) = r.extractLsb' 0 8 := by
  apply BitVec.eq_of_getLsbD_eq
  intro k hk
  rw [fieldKK, getLsbD_field, BitVec.getLsbD_append, BitVec.getLsbD_extractLsb']
  simp [hk, show k < 12 by omega]

@[simp] theorem high_of_append (x : Nibble) (kk : Byte) : (x ++ kk : BitVec 12).extractLsb' 8 4 = x := by
  apply BitVec.eq_of_getLsbD_eq
  intro k hk
  rw [BitVec.getLsbD_extractLsb', BitVec.getLsbD_append]
  simp [hk]

@[simp] theorem low_of_append (x : Nibble) (kk : Byte) : (x ++ kk : BitVec 12).extractLsb' 0 8 = kk := by
  apply BitVec.eq_of_getLsbD_eq
  intro k hk
  rw [BitVec.getLsbD_extractLsb', BitVec.getLsbD_append]
  simp [hk]

/-- Y and N are the nibbles of KK. -/
theorem fieldY_eq (op : Word) : fieldY op = (fieldKK op).extractLsb' 4 4 := by
  apply BitVec.eq_of_getLsbD_eq
  intro k hk
  rw [fieldY, fieldKK, getLsbD_field, BitVec.getLsbD_extractLsb', getLsbD_field]
  simp [hk, show 4 + k < 8 by omega]

theorem fieldN_eq (op : Word) : fieldN op = (fieldKK op).extractLsb' 0 4 := by
  apply BitVec.eq_of_getLsbD_eq
  intro k hk
  rw [fieldN, fieldKK, getLsbD_field, BitVec.getLsbD_extractLsb', getLsbD_field]
  simp [hk, show k < 8 by omega]

@[simp] theorem high_nibble_of_append (y n : Nibble) : (y ++ n : Byte).extractLsb' 4 4 = y := by
  apply BitVec.eq_of_getLsbD_eq
  intro k hk
  rw [BitVec.getLsbD_extractLsb', BitVec.getLsbD_append]
  simp [hk]

@[simp] theorem low_nibble_of_append (y n : Nibble) : (y ++ n : Byte).extractLsb' 0 4 = n := by
  apply BitVec.eq_of_getLsbD_eq
  intro k hk
  rw [BitVec.getLsbD_extractLsb', BitVec.getLsbD_append]
  simp [hk]

/-! The fields of each format (30_encoding.md R93). -/

@[simp] theorem fieldOp_wordAddr (o : Nibble) (nnn : Addr12) : fieldOp (wordAddr o nnn) = o := fieldOp_append o nnn

@[simp] theorem fieldNNN_wordAddr (o : Nibble) (nnn : Addr12) : fieldNNN (wordAddr o nnn) = nnn := fieldNNN_append o nnn

@[simp] theorem fieldOp_wordRegImm (o x : Nibble) (kk : Byte) : fieldOp (wordRegImm o x kk) = o := fieldOp_append o _

@[simp] theorem fieldX_wordRegImm (o x : Nibble) (kk : Byte) : fieldX (wordRegImm o x kk) = x :=
  (fieldX_append o _).trans (high_of_append x kk)

@[simp] theorem fieldKK_wordRegImm (o x : Nibble) (kk : Byte) : fieldKK (wordRegImm o x kk) = kk :=
  (fieldKK_append o _).trans (low_of_append x kk)

@[simp] theorem fieldOp_wordRegReg (o x y n : Nibble) : fieldOp (wordRegReg o x y n) = o := fieldOp_append o _

@[simp] theorem fieldX_wordRegReg (o x y n : Nibble) : fieldX (wordRegReg o x y n) = x :=
  (fieldX_append o _).trans (high_of_append x _)

@[simp] theorem fieldY_wordRegReg (o x y n : Nibble) : fieldY (wordRegReg o x y n) = y := by
  rw [fieldY_eq, wordRegReg, fieldKK_append, low_of_append, high_nibble_of_append]

@[simp] theorem fieldN_wordRegReg (o x y n : Nibble) : fieldN (wordRegReg o x y n) = n := by
  rw [fieldN_eq, wordRegReg, fieldKK_append, low_of_append, low_nibble_of_append]

/-! A word is built from its fields. -/

/-- The word with the same family and the same twelve low bits. -/
theorem wordAddr_fields (op : Word) : wordAddr (fieldOp op) (fieldNNN op) = op := by
  apply BitVec.eq_of_getLsbD_eq
  intro k hk
  rw [wordAddr, BitVec.getLsbD_append, fieldNNN, fieldOp, getLsbD_field, getLsbD_field]
  by_cases h : k < 12
  · simp [h]
  · simp [h, show k - 12 < 4 by omega, show 12 + (k - 12) = k by omega]

theorem fieldNNN_of_fields (op : Word) : (fieldX op ++ fieldKK op : BitVec 12) = fieldNNN op := by
  apply BitVec.eq_of_getLsbD_eq
  intro k hk
  rw [BitVec.getLsbD_append, fieldKK, fieldX, fieldNNN, getLsbD_field, getLsbD_field, getLsbD_field]
  by_cases h : k < 8
  · simp [h, hk]
  · simp [h, hk, show k - 8 < 4 by omega, show 8 + (k - 8) = k by omega]

theorem fieldKK_of_fields (op : Word) : (fieldY op ++ fieldN op : Byte) = fieldKK op := by
  apply BitVec.eq_of_getLsbD_eq
  intro k hk
  rw [BitVec.getLsbD_append, fieldN, fieldY, fieldKK, getLsbD_field, getLsbD_field, getLsbD_field]
  by_cases h : k < 4
  · simp [h, hk]
  · simp [h, hk, show k - 4 < 4 by omega, show 4 + (k - 4) = k by omega]

theorem wordRegImm_fields (op : Word) : wordRegImm (fieldOp op) (fieldX op) (fieldKK op) = op := by
  rw [wordRegImm, fieldNNN_of_fields]
  exact wordAddr_fields op

theorem wordRegReg_fields (op : Word) : wordRegReg (fieldOp op) (fieldX op) (fieldY op) (fieldN op) = op := by
  rw [wordRegReg, fieldKK_of_fields]
  exact wordRegImm_fields op

/-- The bytes of a word put together again (20_memory.md R62). -/
@[simp] theorem wordOfBytes_bytesOfWord (w : Word) : wordOfBytes (bytesOfWord w).1 (bytesOfWord w).2 = w := by
  apply BitVec.eq_of_getLsbD_eq
  intro k hk
  rw [wordOfBytes, bytesOfWord, BitVec.getLsbD_append, getLsbD_field, getLsbD_field]
  by_cases h : k < 8
  · simp [h]
  · simp [h, show k - 8 < 8 by omega, show 8 + (k - 8) = k by omega]

/-- Decoding this hardware's words is strict decoding (30_encoding.md R106). -/
theorem decode_eq (op : Word) : decode op = decodeWith true op := rfl

end Sys2Proof
end

