-- ==== Sys2Proof/Laws/State.lean ====
section
/-! SUPPORT. One lemma per field per update of State, so that no proof unfolds a record update. -/

namespace Sys2Proof.Machine

variable (s : State)

@[simp] theorem State.setV_mem (x : Nibble) (b : Byte) : (s.setV x b).mem = s.mem := rfl
@[simp] theorem State.setV_v (x : Nibble) (b : Byte) : (s.setV x b).v = s.v.set x.toNat b x.isLt := rfl
@[simp] theorem State.setV_pc (x : Nibble) (b : Byte) : (s.setV x b).pc = s.pc := rfl
@[simp] theorem State.setV_i (x : Nibble) (b : Byte) : (s.setV x b).i = s.i := rfl
@[simp] theorem State.setV_stack (x : Nibble) (b : Byte) : (s.setV x b).stack = s.stack := rfl
@[simp] theorem State.setV_dt (x : Nibble) (b : Byte) : (s.setV x b).dt = s.dt := rfl
@[simp] theorem State.setV_st (x : Nibble) (b : Byte) : (s.setV x b).st = s.st := rfl
@[simp] theorem State.setV_disp (x : Nibble) (b : Byte) : (s.setV x b).disp = s.disp := rfl
@[simp] theorem State.setV_mode (x : Nibble) (b : Byte) : (s.setV x b).mode = s.mode := rfl
@[simp] theorem State.setV_inputs (x : Nibble) (b : Byte) : (s.setV x b).inputs = s.inputs := rfl
@[simp] theorem State.setV_stepNo (x : Nibble) (b : Byte) : (s.setV x b).stepNo = s.stepNo := rfl
@[simp] theorem State.setV_input (x : Nibble) (b : Byte) : (s.setV x b).input = s.input := rfl

@[simp] theorem State.setI_mem (a : Word) : (s.setI a).mem = s.mem := rfl
@[simp] theorem State.setI_v (a : Word) : (s.setI a).v = s.v := rfl
@[simp] theorem State.setI_pc (a : Word) : (s.setI a).pc = s.pc := rfl
@[simp] theorem State.setI_i (a : Word) : (s.setI a).i = a := rfl
@[simp] theorem State.setI_stack (a : Word) : (s.setI a).stack = s.stack := rfl
@[simp] theorem State.setI_dt (a : Word) : (s.setI a).dt = s.dt := rfl
@[simp] theorem State.setI_st (a : Word) : (s.setI a).st = s.st := rfl
@[simp] theorem State.setI_disp (a : Word) : (s.setI a).disp = s.disp := rfl
@[simp] theorem State.setI_mode (a : Word) : (s.setI a).mode = s.mode := rfl
@[simp] theorem State.setI_inputs (a : Word) : (s.setI a).inputs = s.inputs := rfl
@[simp] theorem State.setI_stepNo (a : Word) : (s.setI a).stepNo = s.stepNo := rfl
@[simp] theorem State.setI_getV (a : Word) (y : Nibble) : (s.setI a).getV y = s.getV y := rfl
@[simp] theorem State.setI_input (a : Word) : (s.setI a).input = s.input := rfl

@[simp] theorem State.setPc_mem (a : Word) : (s.setPc a).mem = s.mem := rfl
@[simp] theorem State.setPc_v (a : Word) : (s.setPc a).v = s.v := rfl
@[simp] theorem State.setPc_pc (a : Word) : (s.setPc a).pc = a := rfl
@[simp] theorem State.setPc_i (a : Word) : (s.setPc a).i = s.i := rfl
@[simp] theorem State.setPc_stack (a : Word) : (s.setPc a).stack = s.stack := rfl
@[simp] theorem State.setPc_dt (a : Word) : (s.setPc a).dt = s.dt := rfl
@[simp] theorem State.setPc_st (a : Word) : (s.setPc a).st = s.st := rfl
@[simp] theorem State.setPc_disp (a : Word) : (s.setPc a).disp = s.disp := rfl
@[simp] theorem State.setPc_mode (a : Word) : (s.setPc a).mode = s.mode := rfl
@[simp] theorem State.setPc_inputs (a : Word) : (s.setPc a).inputs = s.inputs := rfl
@[simp] theorem State.setPc_stepNo (a : Word) : (s.setPc a).stepNo = s.stepNo := rfl
@[simp] theorem State.setPc_getV (a : Word) (y : Nibble) : (s.setPc a).getV y = s.getV y := rfl
@[simp] theorem State.setPc_input (a : Word) : (s.setPc a).input = s.input := rfl

@[simp] theorem State.setDt_mem (b : Byte) : (s.setDt b).mem = s.mem := rfl
@[simp] theorem State.setDt_v (b : Byte) : (s.setDt b).v = s.v := rfl
@[simp] theorem State.setDt_pc (b : Byte) : (s.setDt b).pc = s.pc := rfl
@[simp] theorem State.setDt_i (b : Byte) : (s.setDt b).i = s.i := rfl
@[simp] theorem State.setDt_stack (b : Byte) : (s.setDt b).stack = s.stack := rfl
@[simp] theorem State.setDt_dt (b : Byte) : (s.setDt b).dt = b := rfl
@[simp] theorem State.setDt_st (b : Byte) : (s.setDt b).st = s.st := rfl
@[simp] theorem State.setDt_disp (b : Byte) : (s.setDt b).disp = s.disp := rfl
@[simp] theorem State.setDt_mode (b : Byte) : (s.setDt b).mode = s.mode := rfl
@[simp] theorem State.setDt_inputs (b : Byte) : (s.setDt b).inputs = s.inputs := rfl
@[simp] theorem State.setDt_stepNo (b : Byte) : (s.setDt b).stepNo = s.stepNo := rfl
@[simp] theorem State.setDt_getV (b : Byte) (y : Nibble) : (s.setDt b).getV y = s.getV y := rfl
@[simp] theorem State.setDt_input (b : Byte) : (s.setDt b).input = s.input := rfl

@[simp] theorem State.setSt_mem (b : Byte) : (s.setSt b).mem = s.mem := rfl
@[simp] theorem State.setSt_v (b : Byte) : (s.setSt b).v = s.v := rfl
@[simp] theorem State.setSt_pc (b : Byte) : (s.setSt b).pc = s.pc := rfl
@[simp] theorem State.setSt_i (b : Byte) : (s.setSt b).i = s.i := rfl
@[simp] theorem State.setSt_stack (b : Byte) : (s.setSt b).stack = s.stack := rfl
@[simp] theorem State.setSt_dt (b : Byte) : (s.setSt b).dt = s.dt := rfl
@[simp] theorem State.setSt_st (b : Byte) : (s.setSt b).st = b := rfl
@[simp] theorem State.setSt_disp (b : Byte) : (s.setSt b).disp = s.disp := rfl
@[simp] theorem State.setSt_mode (b : Byte) : (s.setSt b).mode = s.mode := rfl
@[simp] theorem State.setSt_inputs (b : Byte) : (s.setSt b).inputs = s.inputs := rfl
@[simp] theorem State.setSt_stepNo (b : Byte) : (s.setSt b).stepNo = s.stepNo := rfl
@[simp] theorem State.setSt_getV (b : Byte) (y : Nibble) : (s.setSt b).getV y = s.getV y := rfl
@[simp] theorem State.setSt_input (b : Byte) : (s.setSt b).input = s.input := rfl

@[simp] theorem State.setMem_mem (m : Memory) : (s.setMem m).mem = m := rfl
@[simp] theorem State.setMem_v (m : Memory) : (s.setMem m).v = s.v := rfl
@[simp] theorem State.setMem_pc (m : Memory) : (s.setMem m).pc = s.pc := rfl
@[simp] theorem State.setMem_i (m : Memory) : (s.setMem m).i = s.i := rfl
@[simp] theorem State.setMem_stack (m : Memory) : (s.setMem m).stack = s.stack := rfl
@[simp] theorem State.setMem_dt (m : Memory) : (s.setMem m).dt = s.dt := rfl
@[simp] theorem State.setMem_st (m : Memory) : (s.setMem m).st = s.st := rfl
@[simp] theorem State.setMem_disp (m : Memory) : (s.setMem m).disp = s.disp := rfl
@[simp] theorem State.setMem_mode (m : Memory) : (s.setMem m).mode = s.mode := rfl
@[simp] theorem State.setMem_inputs (m : Memory) : (s.setMem m).inputs = s.inputs := rfl
@[simp] theorem State.setMem_stepNo (m : Memory) : (s.setMem m).stepNo = s.stepNo := rfl
@[simp] theorem State.setMem_getV (m : Memory) (y : Nibble) : (s.setMem m).getV y = s.getV y := rfl
@[simp] theorem State.setMem_input (m : Memory) : (s.setMem m).input = s.input := rfl

@[simp] theorem State.setDisp_mem (d : Display) : (s.setDisp d).mem = s.mem := rfl
@[simp] theorem State.setDisp_v (d : Display) : (s.setDisp d).v = s.v := rfl
@[simp] theorem State.setDisp_pc (d : Display) : (s.setDisp d).pc = s.pc := rfl
@[simp] theorem State.setDisp_i (d : Display) : (s.setDisp d).i = s.i := rfl
@[simp] theorem State.setDisp_stack (d : Display) : (s.setDisp d).stack = s.stack := rfl
@[simp] theorem State.setDisp_dt (d : Display) : (s.setDisp d).dt = s.dt := rfl
@[simp] theorem State.setDisp_st (d : Display) : (s.setDisp d).st = s.st := rfl
@[simp] theorem State.setDisp_disp (d : Display) : (s.setDisp d).disp = d := rfl
@[simp] theorem State.setDisp_mode (d : Display) : (s.setDisp d).mode = s.mode := rfl
@[simp] theorem State.setDisp_inputs (d : Display) : (s.setDisp d).inputs = s.inputs := rfl
@[simp] theorem State.setDisp_stepNo (d : Display) : (s.setDisp d).stepNo = s.stepNo := rfl
@[simp] theorem State.setDisp_getV (d : Display) (y : Nibble) : (s.setDisp d).getV y = s.getV y := rfl
@[simp] theorem State.setDisp_input (d : Display) : (s.setDisp d).input = s.input := rfl

@[simp] theorem State.advance_mem : (s.advance).mem = s.mem := rfl
@[simp] theorem State.advance_v : (s.advance).v = s.v := rfl
@[simp] theorem State.advance_pc : (s.advance).pc = s.pc + 2#16 := rfl
@[simp] theorem State.advance_i : (s.advance).i = s.i := rfl
@[simp] theorem State.advance_stack : (s.advance).stack = s.stack := rfl
@[simp] theorem State.advance_dt : (s.advance).dt = s.dt := rfl
@[simp] theorem State.advance_st : (s.advance).st = s.st := rfl
@[simp] theorem State.advance_disp : (s.advance).disp = s.disp := rfl
@[simp] theorem State.advance_mode : (s.advance).mode = s.mode := rfl
@[simp] theorem State.advance_inputs : (s.advance).inputs = s.inputs := rfl
@[simp] theorem State.advance_stepNo : (s.advance).stepNo = s.stepNo := rfl
@[simp] theorem State.advance_getV (y : Nibble) : (s.advance).getV y = s.getV y := rfl
@[simp] theorem State.advance_input : (s.advance).input = s.input := rfl

@[simp] theorem State.rewind_mem : (s.rewind).mem = s.mem := rfl
@[simp] theorem State.rewind_v : (s.rewind).v = s.v := rfl
@[simp] theorem State.rewind_pc : (s.rewind).pc = s.pc - 2#16 := rfl
@[simp] theorem State.rewind_i : (s.rewind).i = s.i := rfl
@[simp] theorem State.rewind_stack : (s.rewind).stack = s.stack := rfl
@[simp] theorem State.rewind_dt : (s.rewind).dt = s.dt := rfl
@[simp] theorem State.rewind_st : (s.rewind).st = s.st := rfl
@[simp] theorem State.rewind_disp : (s.rewind).disp = s.disp := rfl
@[simp] theorem State.rewind_mode : (s.rewind).mode = s.mode := rfl
@[simp] theorem State.rewind_inputs : (s.rewind).inputs = s.inputs := rfl
@[simp] theorem State.rewind_stepNo : (s.rewind).stepNo = s.stepNo := rfl
@[simp] theorem State.rewind_getV (y : Nibble) : (s.rewind).getV y = s.getV y := rfl
@[simp] theorem State.rewind_input : (s.rewind).input = s.input := rfl

@[simp] theorem State.push_mem (a : Word) : (s.push a).mem = s.mem := rfl
@[simp] theorem State.push_v (a : Word) : (s.push a).v = s.v := rfl
@[simp] theorem State.push_pc (a : Word) : (s.push a).pc = s.pc := rfl
@[simp] theorem State.push_i (a : Word) : (s.push a).i = s.i := rfl
@[simp] theorem State.push_stack (a : Word) : (s.push a).stack = a :: s.stack := rfl
@[simp] theorem State.push_dt (a : Word) : (s.push a).dt = s.dt := rfl
@[simp] theorem State.push_st (a : Word) : (s.push a).st = s.st := rfl
@[simp] theorem State.push_disp (a : Word) : (s.push a).disp = s.disp := rfl
@[simp] theorem State.push_mode (a : Word) : (s.push a).mode = s.mode := rfl
@[simp] theorem State.push_inputs (a : Word) : (s.push a).inputs = s.inputs := rfl
@[simp] theorem State.push_stepNo (a : Word) : (s.push a).stepNo = s.stepNo := rfl
@[simp] theorem State.push_getV (a : Word) (y : Nibble) : (s.push a).getV y = s.getV y := rfl
@[simp] theorem State.push_input (a : Word) : (s.push a).input = s.input := rfl

@[simp] theorem State.halt_mem (r : Fault) : (s.halt r).mem = s.mem := rfl
@[simp] theorem State.halt_v (r : Fault) : (s.halt r).v = s.v := rfl
@[simp] theorem State.halt_pc (r : Fault) : (s.halt r).pc = s.pc := rfl
@[simp] theorem State.halt_i (r : Fault) : (s.halt r).i = s.i := rfl
@[simp] theorem State.halt_stack (r : Fault) : (s.halt r).stack = s.stack := rfl
@[simp] theorem State.halt_dt (r : Fault) : (s.halt r).dt = s.dt := rfl
@[simp] theorem State.halt_st (r : Fault) : (s.halt r).st = s.st := rfl
@[simp] theorem State.halt_disp (r : Fault) : (s.halt r).disp = s.disp := rfl
@[simp] theorem State.halt_mode (r : Fault) : (s.halt r).mode = .halted r := rfl
@[simp] theorem State.halt_inputs (r : Fault) : (s.halt r).inputs = s.inputs := rfl
@[simp] theorem State.halt_stepNo (r : Fault) : (s.halt r).stepNo = s.stepNo := rfl
@[simp] theorem State.halt_getV (r : Fault) (y : Nibble) : (s.halt r).getV y = s.getV y := rfl
@[simp] theorem State.halt_input (r : Fault) : (s.halt r).input = s.input := rfl

@[simp] theorem State.tick_mem : (s.tick).mem = s.mem := rfl
@[simp] theorem State.tick_v : (s.tick).v = s.v := rfl
@[simp] theorem State.tick_pc : (s.tick).pc = s.pc := rfl
@[simp] theorem State.tick_i : (s.tick).i = s.i := rfl
@[simp] theorem State.tick_stack : (s.tick).stack = s.stack := rfl
@[simp] theorem State.tick_dt : (s.tick).dt = decrement s.dt := rfl
@[simp] theorem State.tick_st : (s.tick).st = decrement s.st := rfl
@[simp] theorem State.tick_disp : (s.tick).disp = s.disp := rfl
@[simp] theorem State.tick_mode : (s.tick).mode = s.mode := rfl
@[simp] theorem State.tick_inputs : (s.tick).inputs = s.inputs := rfl
@[simp] theorem State.tick_stepNo : (s.tick).stepNo = s.stepNo := rfl
@[simp] theorem State.tick_getV (y : Nibble) : (s.tick).getV y = s.getV y := rfl
@[simp] theorem State.tick_input : (s.tick).input = s.input := rfl

@[simp] theorem State.nextInput_mem : (s.nextInput).mem = s.mem := rfl
@[simp] theorem State.nextInput_v : (s.nextInput).v = s.v := rfl
@[simp] theorem State.nextInput_pc : (s.nextInput).pc = s.pc := rfl
@[simp] theorem State.nextInput_i : (s.nextInput).i = s.i := rfl
@[simp] theorem State.nextInput_stack : (s.nextInput).stack = s.stack := rfl
@[simp] theorem State.nextInput_dt : (s.nextInput).dt = s.dt := rfl
@[simp] theorem State.nextInput_st : (s.nextInput).st = s.st := rfl
@[simp] theorem State.nextInput_disp : (s.nextInput).disp = s.disp := rfl
@[simp] theorem State.nextInput_mode : (s.nextInput).mode = s.mode := rfl
@[simp] theorem State.nextInput_inputs : (s.nextInput).inputs = s.inputs.tail := rfl
@[simp] theorem State.nextInput_stepNo : (s.nextInput).stepNo = s.stepNo + 1 := rfl
@[simp] theorem State.nextInput_getV (y : Nibble) : (s.nextInput).getV y = s.getV y := rfl


@[simp] theorem State.storeBlock_mem (n : Nat) : (s.storeBlock n).mem = upTo n (fun k m => m.write (s.i.toNat + k) (s.getV (BitVec.ofNat 4 k))) s.mem := rfl
@[simp] theorem State.storeBlock_v (n : Nat) : (s.storeBlock n).v = s.v := rfl
@[simp] theorem State.storeBlock_pc (n : Nat) : (s.storeBlock n).pc = s.pc := rfl
@[simp] theorem State.storeBlock_i (n : Nat) : (s.storeBlock n).i = s.i := rfl
@[simp] theorem State.storeBlock_stack (n : Nat) : (s.storeBlock n).stack = s.stack := rfl
@[simp] theorem State.storeBlock_dt (n : Nat) : (s.storeBlock n).dt = s.dt := rfl
@[simp] theorem State.storeBlock_st (n : Nat) : (s.storeBlock n).st = s.st := rfl
@[simp] theorem State.storeBlock_disp (n : Nat) : (s.storeBlock n).disp = s.disp := rfl
@[simp] theorem State.storeBlock_mode (n : Nat) : (s.storeBlock n).mode = s.mode := rfl
@[simp] theorem State.storeBlock_inputs (n : Nat) : (s.storeBlock n).inputs = s.inputs := rfl
@[simp] theorem State.storeBlock_stepNo (n : Nat) : (s.storeBlock n).stepNo = s.stepNo := rfl
@[simp] theorem State.storeBlock_getV (n : Nat) (y : Nibble) : (s.storeBlock n).getV y = s.getV y := rfl
@[simp] theorem State.storeBlock_input (n : Nat) : (s.storeBlock n).input = s.input := rfl

/-- Reading a register after writing one (00_scope.md R13). -/
@[simp] theorem State.getV_setV (x y : Nibble) (b : Byte) : (s.setV x b).getV y = if x = y then b else s.getV y := by
  have h : x.toNat = y.toNat ↔ x = y := BitVec.toNat_inj
  simp [State.getV, State.setV, Vector.getElem_set, h]

@[simp] theorem State.skipIf_mem (c : Bool) : (s.skipIf c).mem = s.mem := by cases c <;> rfl
@[simp] theorem State.skipIf_v (c : Bool) : (s.skipIf c).v = s.v := by cases c <;> rfl
@[simp] theorem State.skipIf_pc (c : Bool) : (s.skipIf c).pc = if c then s.pc + 2#16 else s.pc := by cases c <;> rfl
@[simp] theorem State.skipIf_i (c : Bool) : (s.skipIf c).i = s.i := by cases c <;> rfl
@[simp] theorem State.skipIf_stack (c : Bool) : (s.skipIf c).stack = s.stack := by cases c <;> rfl
@[simp] theorem State.skipIf_dt (c : Bool) : (s.skipIf c).dt = s.dt := by cases c <;> rfl
@[simp] theorem State.skipIf_st (c : Bool) : (s.skipIf c).st = s.st := by cases c <;> rfl
@[simp] theorem State.skipIf_disp (c : Bool) : (s.skipIf c).disp = s.disp := by cases c <;> rfl
@[simp] theorem State.skipIf_mode (c : Bool) : (s.skipIf c).mode = s.mode := by cases c <;> rfl
@[simp] theorem State.skipIf_inputs (c : Bool) : (s.skipIf c).inputs = s.inputs := by cases c <;> rfl
@[simp] theorem State.skipIf_stepNo (c : Bool) : (s.skipIf c).stepNo = s.stepNo := by cases c <;> rfl
@[simp] theorem State.skipIf_getV (c : Bool) (y : Nibble) : (s.skipIf c).getV y = s.getV y := by cases c <;> rfl

@[simp] theorem State.setResultFlag_mem (cfg : Config) (x : Nibble) (b : Byte) (c : Bool) : (s.setResultFlag cfg x b c).mem = s.mem := by
  unfold State.setResultFlag; split <;> rfl
@[simp] theorem State.setResultFlag_pc (cfg : Config) (x : Nibble) (b : Byte) (c : Bool) : (s.setResultFlag cfg x b c).pc = s.pc := by
  unfold State.setResultFlag; split <;> rfl
@[simp] theorem State.setResultFlag_i (cfg : Config) (x : Nibble) (b : Byte) (c : Bool) : (s.setResultFlag cfg x b c).i = s.i := by
  unfold State.setResultFlag; split <;> rfl
@[simp] theorem State.setResultFlag_stack (cfg : Config) (x : Nibble) (b : Byte) (c : Bool) : (s.setResultFlag cfg x b c).stack = s.stack := by
  unfold State.setResultFlag; split <;> rfl
@[simp] theorem State.setResultFlag_dt (cfg : Config) (x : Nibble) (b : Byte) (c : Bool) : (s.setResultFlag cfg x b c).dt = s.dt := by
  unfold State.setResultFlag; split <;> rfl
@[simp] theorem State.setResultFlag_st (cfg : Config) (x : Nibble) (b : Byte) (c : Bool) : (s.setResultFlag cfg x b c).st = s.st := by
  unfold State.setResultFlag; split <;> rfl
@[simp] theorem State.setResultFlag_disp (cfg : Config) (x : Nibble) (b : Byte) (c : Bool) : (s.setResultFlag cfg x b c).disp = s.disp := by
  unfold State.setResultFlag; split <;> rfl
@[simp] theorem State.setResultFlag_mode (cfg : Config) (x : Nibble) (b : Byte) (c : Bool) : (s.setResultFlag cfg x b c).mode = s.mode := by
  unfold State.setResultFlag; split <;> rfl
@[simp] theorem State.setResultFlag_inputs (cfg : Config) (x : Nibble) (b : Byte) (c : Bool) : (s.setResultFlag cfg x b c).inputs = s.inputs := by
  unfold State.setResultFlag; split <;> rfl
@[simp] theorem State.setResultFlag_stepNo (cfg : Config) (x : Nibble) (b : Byte) (c : Bool) : (s.setResultFlag cfg x b c).stepNo = s.stepNo := by
  unfold State.setResultFlag; split <;> rfl

@[simp] theorem State.loadBlock_mem (n : Nat) : (s.loadBlock n).mem = s.mem := by
  unfold State.loadBlock; induction n with
  | zero => rfl
  | succ n ih => exact ih
@[simp] theorem State.loadBlock_pc (n : Nat) : (s.loadBlock n).pc = s.pc := by
  unfold State.loadBlock; induction n with
  | zero => rfl
  | succ n ih => exact ih
@[simp] theorem State.loadBlock_i (n : Nat) : (s.loadBlock n).i = s.i := by
  unfold State.loadBlock; induction n with
  | zero => rfl
  | succ n ih => exact ih
@[simp] theorem State.loadBlock_stack (n : Nat) : (s.loadBlock n).stack = s.stack := by
  unfold State.loadBlock; induction n with
  | zero => rfl
  | succ n ih => exact ih
@[simp] theorem State.loadBlock_dt (n : Nat) : (s.loadBlock n).dt = s.dt := by
  unfold State.loadBlock; induction n with
  | zero => rfl
  | succ n ih => exact ih
@[simp] theorem State.loadBlock_st (n : Nat) : (s.loadBlock n).st = s.st := by
  unfold State.loadBlock; induction n with
  | zero => rfl
  | succ n ih => exact ih
@[simp] theorem State.loadBlock_disp (n : Nat) : (s.loadBlock n).disp = s.disp := by
  unfold State.loadBlock; induction n with
  | zero => rfl
  | succ n ih => exact ih
@[simp] theorem State.loadBlock_mode (n : Nat) : (s.loadBlock n).mode = s.mode := by
  unfold State.loadBlock; induction n with
  | zero => rfl
  | succ n ih => exact ih
@[simp] theorem State.loadBlock_inputs (n : Nat) : (s.loadBlock n).inputs = s.inputs := by
  unfold State.loadBlock; induction n with
  | zero => rfl
  | succ n ih => exact ih
@[simp] theorem State.loadBlock_stepNo (n : Nat) : (s.loadBlock n).stepNo = s.stepNo := by
  unfold State.loadBlock; induction n with
  | zero => rfl
  | succ n ih => exact ih

end Sys2Proof.Machine
end

