-- ==== Sys2Proof/Laws/Memory.lean ====
section
/-! SUPPORT. What the memory primitives do: a read after a write, the frame of a write, and the
canonical form, which every memory operation keeps. -/

namespace Sys2Proof.Machine

@[simp] theorem Memory.read_nil (a : Nat) : Memory.read [] a = Memory.unlisted a := rfl

theorem Memory.read_cons (b : Nat) (w : Byte) (m : Memory) (a : Nat) :
    Memory.read ((b, w) :: m) a = if a = b then w else Memory.read m a := rfl

/-- The canonical form of a listed entry and the rest, unfolded once. -/
theorem Memory.wf_cons (a : Nat) (v : Byte) (m : Memory) :
    Memory.wf ((a, v) :: m) = true ↔
      a < memSize ∧ v ≠ Memory.unlisted a ∧ (∀ c ∈ m, a < c.1) ∧ Memory.wf m = true := by
  simp [Memory.wf, and_assoc]

/-- An address below every listed one reads as unlisted. -/
theorem Memory.read_below (m : Memory) (a : Nat) (h : ∀ c ∈ m, a < c.1) : Memory.read m a = Memory.unlisted a := by
  induction m with
  | nil => rfl
  | cons c m ih =>
    obtain ⟨b, w⟩ := c
    have hb : a ≠ b := by have := h (b, w) (by simp); simp at this; omega
    rw [Memory.read_cons, if_neg hb]
    exact ih fun c hc => h c (by simp [hc])

theorem Memory.read_entry_append (m : Memory) (a a' : Nat) (v : Byte) (h : a' ≠ a) :
    Memory.read (Memory.entry a v ++ m) a' = Memory.read m a' := by
  unfold Memory.entry
  split
  · rfl
  · simp [Memory.read_cons, h]

theorem Memory.read_entry_append_self (m : Memory) (a : Nat) (v : Byte) (h : ∀ c ∈ m, a < c.1) :
    Memory.read (Memory.entry a v ++ m) a = v := by
  unfold Memory.entry
  split
  · next hv => rw [List.nil_append, Memory.read_below m a h, hv]
  · simp [Memory.read_cons]

/-- A put leaves every other address as it reads. -/
theorem Memory.read_put_other (m : Memory) (a a' : Nat) (v : Byte) (h : a' ≠ a) :
    Memory.read (Memory.put m a v) a' = Memory.read m a' := by
  induction m with
  | nil => simpa [Memory.put] using Memory.read_entry_append [] a a' v h
  | cons c m ih =>
    obtain ⟨b, w⟩ := c
    unfold Memory.put
    split
    · exact Memory.read_entry_append _ _ _ _ h
    · split
      · next hb => rw [Memory.read_entry_append _ _ _ _ h, Memory.read_cons, if_neg (by omega)]
      · rw [Memory.read_cons, Memory.read_cons, ih]

/-- A read after a put to the same address. -/
theorem Memory.read_put_self (m : Memory) (a : Nat) (v : Byte) (hm : Memory.wf m = true) :
    Memory.read (Memory.put m a v) a = v := by
  induction m with
  | nil => simpa [Memory.put] using Memory.read_entry_append_self [] a v (by simp)
  | cons c m ih =>
    obtain ⟨b, w⟩ := c
    obtain ⟨-, -, hlt, hm⟩ := (Memory.wf_cons b w m).1 hm
    unfold Memory.put
    split
    · next hab =>
      refine Memory.read_entry_append_self _ a v fun c hc => ?_
      rcases List.mem_cons.1 hc with rfl | hc
      · exact hab
      · exact Nat.lt_trans hab (hlt c hc)
    · split
      · next hb => exact Memory.read_entry_append_self _ a v (by rw [hb]; exact hlt)
      · next hb => rw [Memory.read_cons, if_neg hb, ih hm]

theorem Memory.mem_put (m : Memory) (a : Nat) (v : Byte) (c : Host.Cell) (h : c ∈ Memory.put m a v) :
    c.1 = a ∨ c ∈ m := by
  have entry : ∀ l : Memory, c ∈ Memory.entry a v ++ l → c.1 = a ∨ c ∈ l := by
    intro l hl
    unfold Memory.entry at hl
    split at hl
    · exact .inr (by simpa using hl)
    · rcases List.mem_cons.1 (by simpa using hl) with rfl | hl
      · exact .inl rfl
      · exact .inr hl
  induction m with
  | nil => exact entry [] (by simpa [Memory.put] using h)
  | cons d m ih =>
    obtain ⟨b, w⟩ := d
    unfold Memory.put at h
    split at h
    · exact entry _ h
    · split at h
      · exact (entry _ h).imp_right fun hc => by simp [hc]
      · rcases List.mem_cons.1 h with rfl | h
        · exact .inr (by simp)
        · exact (ih h).imp_right fun hc => by simp [hc]

theorem Memory.entry_append_wf (m : Memory) (a : Nat) (v : Byte) (ha : a < memSize) (h : ∀ c ∈ m, a < c.1)
    (hm : Memory.wf m = true) : Memory.wf (Memory.entry a v ++ m) = true := by
  unfold Memory.entry
  split
  · simpa using hm
  · next hv => exact (Memory.wf_cons a v m).2 ⟨ha, hv, h, hm⟩

/-- A put inside memory keeps the canonical form. -/
theorem Memory.put_wf (m : Memory) (a : Nat) (v : Byte) (ha : a < memSize) (hm : Memory.wf m = true) :
    Memory.wf (Memory.put m a v) = true := by
  induction m with
  | nil => simpa [Memory.put] using Memory.entry_append_wf [] a v ha (by simp) rfl
  | cons c m ih =>
    obtain ⟨b, w⟩ := c
    obtain ⟨hb, hw, hlt, hm'⟩ := (Memory.wf_cons b w m).1 hm
    unfold Memory.put
    split
    · next hab =>
      refine Memory.entry_append_wf _ a v ha (fun c hc => ?_) hm
      rcases List.mem_cons.1 hc with rfl | hc
      · exact hab
      · exact Nat.lt_trans hab (hlt c hc)
    · split
      · next hab => exact Memory.entry_append_wf _ a v ha (by rw [hab]; exact hlt) hm'
      · refine (Memory.wf_cons b w _).2 ⟨hb, hw, fun c hc => ?_, ih hm'⟩
        rcases Memory.mem_put m a v c hc with h | h
        · omega
        · exact hlt c h

/-- `MemWrite` keeps the canonical form. -/
theorem Memory.write_wf (m : Memory) (a : Nat) (v : Byte) (hm : Memory.wf m = true) :
    Memory.wf (m.write a v) = true := by
  unfold Memory.write
  split
  · exact Memory.put_wf m a v ‹_› hm
  · exact hm

/-- The frame of `MemWrite`. -/
theorem Memory.read_write_other (m : Memory) (a a' : Nat) (v : Byte) (h : a' ≠ a) :
    (m.write a v).read a' = m.read a' := by
  unfold Memory.write
  split
  · exact Memory.read_put_other m a a' v h
  · rfl

/-- `MemRead` after `MemWrite` (20_memory.md R71). -/
theorem Memory.read_write_self (m : Memory) (a : Nat) (v : Byte) (ha : a < memSize) (hm : Memory.wf m = true) :
    (m.write a v).read a = v := by
  unfold Memory.write
  rw [if_pos ha]
  exact Memory.read_put_self m a v hm

theorem Memory.writeBytes_wf (m : Memory) (a : Nat) (bs : List Byte) (hm : Memory.wf m = true) :
    Memory.wf (m.writeBytes a bs) = true := by
  induction bs generalizing m a with
  | nil => exact hm
  | cons b bs ih => exact ih _ _ (Memory.write_wf m a b hm)

/-- The frame of a run of writes. -/
theorem Memory.read_writeBytes_other (m : Memory) (a a' : Nat) (bs : List Byte) (h : a' < a ∨ a + bs.length ≤ a') :
    (m.writeBytes a bs).read a' = m.read a' := by
  induction bs generalizing m a with
  | nil => rfl
  | cons b bs ih =>
    simp only [List.length_cons] at h
    rw [Memory.writeBytes, ih _ _ (by omega), Memory.read_write_other _ _ _ _ (by omega)]

/-- A read of a byte that a run of writes stored. -/
theorem Memory.read_writeBytes (m : Memory) (a k : Nat) (bs : List Byte) (hk : k < bs.length)
    (ha : a + bs.length ≤ memSize) (hm : Memory.wf m = true) : (m.writeBytes a bs).read (a + k) = bs[k] := by
  induction bs generalizing m a k with
  | nil => simp at hk
  | cons b bs ih =>
    simp only [List.length_cons] at hk ha
    cases k with
    | zero =>
      rw [Memory.writeBytes, Memory.read_writeBytes_other _ _ _ _ (by omega)]
      exact Memory.read_write_self m a b (by omega) hm
    | succ k =>
      rw [Memory.writeBytes, show a + (k + 1) = a + 1 + k by omega,
        ih _ _ _ (by omega) (by omega) (Memory.write_wf m a b hm), List.getElem_cons_succ]

/-- The block of writes FX55 makes: `f k` at `base + k`. -/
def writesFrom (base n : Nat) (f : Nat → Byte) (m : Memory) : Memory := upTo n (fun k m => m.write (base + k) (f k)) m

theorem writesFrom_wf (base n : Nat) (f : Nat → Byte) (m : Memory) (hm : m.wf = true) :
    (writesFrom base n f m).wf = true := by
  induction n with
  | zero => exact hm
  | succ n ih => exact Memory.write_wf _ _ _ ih

theorem read_writesFrom_other (base n a : Nat) (f : Nat → Byte) (m : Memory) (h : a < base ∨ base + n ≤ a) :
    (writesFrom base n f m).read a = m.read a := by
  induction n with
  | zero => rfl
  | succ n ih =>
    rw [show writesFrom base (n + 1) f m = (writesFrom base n f m).write (base + n) (f n) from rfl,
      Memory.read_write_other _ _ _ _ (by omega), ih (by omega)]

theorem read_writesFrom (base n k : Nat) (f : Nat → Byte) (m : Memory) (hk : k < n) (hb : base + n ≤ memSize)
    (hm : m.wf = true) : (writesFrom base n f m).read (base + k) = f k := by
  induction n with
  | zero => omega
  | succ n ih =>
    rw [show writesFrom base (n + 1) f m = (writesFrom base n f m).write (base + n) (f n) from rfl]
    by_cases hkn : k = n
    · subst hkn
      exact Memory.read_write_self _ _ _ (by omega) (writesFrom_wf base k f m hm)
    · rw [Memory.read_write_other _ _ _ _ (by omega), ih (by omega) (by omega)]

/-- The memory FX55 leaves is a block of writes. -/
theorem State.storeBlock_mem_eq (s : State) (n : Nat) :
    (s.storeBlock n).mem = writesFrom s.i.toNat n (fun k => s.getV (BitVec.ofNat 4 k)) s.mem := rfl

end Sys2Proof.Machine
end

