-- ==== Sys2Proof/Laws/Ops.lean ====
section
/-! SUPPORT. One lemma per shared operation that says what it does: registers, faults, the display, keys,
the bounds check, and this hardware's parameters. -/

namespace Sys2Proof.Machine

/-! The parameters of this hardware (00_scope.md R7). -/

@[simp] theorem hw_stackCapacity : hw.stackCapacity = none := rfl
@[simp] theorem hw_vfDestOrder : hw.vfDestOrder = .flagLast := rfl
@[simp] theorem hw_shiftSource : hw.shiftSource = .x := rfl
@[simp] theorem hw_drwZeroHeight : hw.drwZeroHeight = .blank := rfl
@[simp] theorem hw_fontAddrMask : hw.fontAddrMask = false := rfl
@[simp] theorem hw_strictDecode : hw.strictDecode = true := rfl
@[simp] theorem hw_sysDiagnosed : hw.sysDiagnosed = false := rfl

/-- Taking a fault in an instruction: the fetch's advance is undone and the mode is `Halted`. -/
theorem raise_eq (r : Fault) (s : State) : raise r s = .next (s.rewind.halt r) := rfl

/-- The fetch's advance undone gives back the state before it. -/
@[simp] theorem State.rewind_advance (s : State) : s.advance.rewind = s := by
  simp [State.advance, State.rewind, State.setPc]

/-- V[X] and VF after a flag-writing instruction: the flag is what VF keeps (41_alu.md R161). -/
@[simp] theorem State.setResultFlag_getV (s : State) (x y : Nibble) (b : Byte) (c : Bool) :
    (s.setResultFlag hw x b c).getV y = if flagReg = y then flagByte c else if x = y then b else s.getV y := by
  simp [State.setResultFlag]

/-- The source of this hardware's shifts is V[X]. -/
@[simp] theorem shiftOperand_hw (s : State) (x y : Nibble) : shiftOperand hw s x y = s.getV x := rfl

/-- CALL on this hardware never finds its stack full (60_exceptions.md R286). -/
theorem callWith_hw (nnn : Addr12) (s : State) : callWith hw nnn s = .next ((s.push s.pc).setPc (zextAddr nnn)) := by
  simp [callWith]

/-- A key skip with an index above 15 (43_keys_timers_memory.md R230). -/
theorem keySkip_out (x : Nibble) (wanted : Bool) (s : State) (h : (s.getV x).toNat > 15) :
    keySkip x wanted s = raise .keyIndexOutOfRange s := by
  simp only [keySkip]
  rw [if_pos h]

/-- A key skip with an index in range (43_keys_timers_memory.md R231, R232). -/
theorem keySkip_ok (x : Nibble) (wanted : Bool) (s : State) (h : (s.getV x).toNat ≤ 15) :
    keySkip x wanted s = .next (s.skipIf (keyIsDown s.input ((s.getV x).setWidth 4) == wanted)) := by
  simp only [keySkip]
  rw [if_neg (by omega)]

/-- The bounds check of 20_memory.md R66, in numbers. -/
theorem spanOk_iff (base : Word) (count : Nat) :
    spanOk base count = true ↔ count = 0 ∨ base.toNat + (count - 1) ≤ 0xFFF := by
  simp [spanOk]

/-- A checked block lies inside memory. -/
theorem spanOk_le (base : Word) (count : Nat) (hc : count ≠ 0) (h : spanOk base count = true) :
    base.toNat + count ≤ memSize := by
  rcases (spanOk_iff base count).1 h with h | h
  · exact absurd h hc
  · simp only [memSize]; omega

/-- The display after one pixel is flipped (42_address_and_display.md R202). -/
theorem Display.pixel_flip (d : Display) (x x' : Fin 64) (y y' : Fin 32) :
    (d.flip x y).pixel x' y' = (d.pixel x' y' ^^ decide (x = x' ∧ y = y')) := by
  have hx : x'.val = x.val ↔ x = x' := ⟨fun h => (Fin.ext h).symm, fun h => by rw [h]⟩
  have hy : y.val = y'.val ↔ y = y' := Fin.val_inj
  simp only [Display.pixel, Display.flip, Fin.getElem_fin, Vector.getElem_set, hy]
  by_cases h : y = y'
  · subst h
    simp [hx]
  · simp [h]

/-- A cleared display (40_system_and_flow.md R121). -/
@[simp] theorem Display.pixel_clear (x : Fin 64) (y : Fin 32) : Display.clear.pixel x y = false := by
  simp [Display.pixel, Display.clear]

@[simp] theorem Canvas.toggle_disp (p : Canvas) (x : Fin 64) (y : Fin 32) : (p.toggle x y).disp = p.disp.flip x y := rfl

@[simp] theorem Canvas.toggle_collision (p : Canvas) (x : Fin 64) (y : Fin 32) :
    (p.toggle x y).collision = (p.collision || p.disp.pixel x y) := rfl

/-- The loop of k from 0, unfolded once. -/
theorem upTo_succ (n : Nat) (f : Nat → α → α) (a : α) : upTo (n + 1) f a = f n (upTo n f a) := rfl

@[simp] theorem upTo_zero (f : Nat → α → α) (a : α) : upTo 0 f a = a := rfl

/-- The registers FX65 leaves: V0 to V[n-1] loaded, the others as they were (43_keys_timers_memory.md R244). -/
theorem State.loadBlock_getV (s : State) (n : Nat) (hn : n ≤ 16) (y : Nibble) :
    (s.loadBlock n).getV y = if y.toNat < n then s.mem.read (s.i.toNat + y.toNat) else s.getV y := by
  induction n with
  | zero => simp [State.loadBlock]
  | succ n ih =>
    have step : s.loadBlock (n + 1) = (s.loadBlock n).setV (BitVec.ofNat 4 n) (s.mem.read (s.i.toNat + n)) := rfl
    have hy : BitVec.ofNat 4 n = y ↔ n = y.toNat := by
      rw [← BitVec.toNat_inj, BitVec.toNat_ofNat, Nat.mod_eq_of_lt (by omega)]
    rw [step, State.getV_setV, ih (by omega)]
    by_cases h : n = y.toNat
    · rw [if_pos (hy.2 h), if_pos (by omega), h]
    · rw [if_neg (mt hy.1 h)]
      by_cases hlt : y.toNat < n
      · rw [if_pos hlt, if_pos (by omega)]
      · rw [if_neg hlt, if_neg (by omega)]

/-- A key the search finds is down. -/
theorem seekKey_down (inp : StepInput) (n : Nat) (k j : Nibble) (h : seekKey inp n k = some j) : keyIsDown inp j = true := by
  induction n generalizing k with
  | zero => simp [seekKey] at h
  | succ n ih =>
    unfold seekKey at h
    split at h
    · next hk => rw [← Option.some.inj h]; exact hk
    · exact ih _ h

/-- The search that finds nothing has seen every key it looked at up. -/
theorem seekKey_none (inp : StepInput) (n : Nat) (k : Nibble) :
    seekKey inp n k = none ↔ ∀ m < n, keyIsDown inp (k + BitVec.ofNat 4 m) = false := by
  induction n generalizing k with
  | zero => simp [seekKey]
  | succ n ih =>
    have succ : ∀ m, k + 1#4 + BitVec.ofNat 4 m = k + BitVec.ofNat 4 (m + 1) := by
      intro m; rw [BitVec.add_assoc, BitVec.ofNat_add, BitVec.add_comm (BitVec.ofNat 4 m)]
    unfold seekKey
    split
    · next hk =>
      simp only [reduceCtorEq, false_iff, not_forall]
      exact ⟨0, by omega, by simp [hk]⟩
    · next hk =>
      rw [ih]
      constructor
      · intro h m hm
        cases m with
        | zero => simpa using hk
        | succ m => rw [← succ]; exact h m (by omega)
      · intro h m hm
        rw [succ]
        exact h (m + 1) (by omega)

/-- The timer decrement in numbers: it saturates at 0 (43_keys_timers_memory.md R245). -/
theorem decrement_toNat (t : Byte) : (decrement t).toNat = t.toNat - 1 := by
  unfold decrement
  split
  · next h => simp [h]
  · next h =>
    have : t.toNat ≠ 0 := fun h0 => h (BitVec.eq_of_toNat_eq (by simpa using h0))
    rw [BitVec.toNat_sub]
    have := t.isLt
    simp
    omega

end Sys2Proof.Machine
end

