-- ==== Sys2Proof/Laws/Draw.lean ====
section
/-! SUPPORT. What the loops of DRW do to one pixel and to the collision flag (42_address_and_display.md R202
to R206). -/

namespace Sys2Proof.Machine

/-- The collision flag only rises. -/
theorem Canvas.toggle_collision_mono (p : Canvas) (x : Fin 64) (y : Fin 32) (h : p.collision = true) :
    (p.toggle x y).collision = true := by simp [h]

/-- The columns drawn so far in one row, as a loop of its own. -/
def Canvas.drawCols (row vx : Byte) (y : Fin 32) (n : Nat) (p : Canvas) : Canvas :=
  upTo n (fun c p => if spriteBit row c then p.toggle (spriteCol vx c) y else p) p

theorem Canvas.drawRow_eq (row vx : Byte) (y : Fin 32) (p : Canvas) : p.drawRow row vx y = p.drawCols row vx y 8 := rfl

/-- A column of the sprite lies on column x (42_address_and_display.md R203, R204). -/
def ColCovers (row vx : Byte) (n : Nat) (x : Fin 64) : Prop := ∃ c < n, spriteCol vx c = x ∧ spriteBit row c = true

/-- Distinct sprite columns lie on distinct screen columns (42_address_and_display.md R206). -/
theorem spriteCol_inj (vx : Byte) (c c' : Nat) (hc : c < 8) (hc' : c' < 8) (h : spriteCol vx c = spriteCol vx c') : c = c' := by
  have := congrArg Fin.val h
  simp only [spriteCol, Fin.ofNat] at this
  omega

/-- Distinct sprite rows lie on distinct screen rows, up to 32 of them (42_address_and_display.md R206). -/
theorem spriteRow_inj (vy : Byte) (r r' : Nat) (hr : r < 32) (hr' : r' < 32) (h : spriteRow vy r = spriteRow vy r') : r = r' := by
  have := congrArg Fin.val h
  simp only [spriteRow, Fin.ofNat] at this
  omega

theorem colCovers_succ (row vx : Byte) (n : Nat) (x : Fin 64) :
    ColCovers row vx (n + 1) x ↔ ColCovers row vx n x ∨ (spriteCol vx n = x ∧ spriteBit row n = true) := by
  constructor
  · rintro ⟨c, hc, h⟩
    rcases Nat.lt_succ_iff_lt_or_eq.1 hc with hc | rfl
    · exact .inl ⟨c, hc, h⟩
    · exact .inr h
  · rintro (⟨c, hc, h⟩ | h)
    · exact ⟨c, by omega, h⟩
    · exact ⟨n, by omega, h⟩

/-- One row drawn: its own row XORed with the sprite row, every other row untouched; the collision rises
exactly when a covered pixel was on. -/
theorem Canvas.drawCols_spec (row vx : Byte) (y : Fin 32) (n : Nat) (hn : n ≤ 8) (p : Canvas) :
    (∀ x, ColCovers row vx n x → (p.drawCols row vx y n).disp.pixel x y = !p.disp.pixel x y) ∧
    (∀ x, ¬ ColCovers row vx n x → (p.drawCols row vx y n).disp.pixel x y = p.disp.pixel x y) ∧
    (∀ x y', y' ≠ y → (p.drawCols row vx y n).disp.pixel x y' = p.disp.pixel x y') ∧
    ((p.drawCols row vx y n).collision = true ↔
      p.collision = true ∨ ∃ x, ColCovers row vx n x ∧ p.disp.pixel x y = true) := by
  induction n with
  | zero =>
    have none : ∀ x, ¬ ColCovers row vx 0 x := by rintro x ⟨c, hc, -⟩; omega
    refine ⟨fun x h => absurd h (none x), fun x _ => rfl, fun x y' _ => rfl, ?_⟩
    constructor
    · exact fun h => .inl h
    · rintro (h | ⟨x, h, -⟩)
      · exact h
      · exact absurd h (none x)
  | succ n ih =>
    obtain ⟨on, off, other, coll⟩ := ih (by omega)
    have fresh : ¬ ColCovers row vx n (spriteCol vx n) := by
      rintro ⟨c, hc, h, -⟩
      have := spriteCol_inj vx c n (by omega) (by omega) h
      omega
    by_cases hb : spriteBit row n = true
    · have step : p.drawCols row vx y (n + 1) = (p.drawCols row vx y n).toggle (spriteCol vx n) y := by
        rw [Canvas.drawCols, upTo_succ, if_pos hb]; rfl
      have px : ∀ x, (p.drawCols row vx y (n + 1)).disp.pixel x y =
          ((p.drawCols row vx y n).disp.pixel x y ^^ decide (spriteCol vx n = x)) := by
        intro x; rw [step, Canvas.toggle_disp, Display.pixel_flip]; simp
      refine ⟨fun x h => ?_, fun x h => ?_, fun x y' hy => ?_, ?_⟩
      · by_cases hx : spriteCol vx n = x
        · rw [px, off x (hx ▸ fresh)]; simp [hx]
        · have : ColCovers row vx n x := ((colCovers_succ row vx n x).1 h).resolve_right fun e => hx e.1
          rw [px, on x this]; simp [hx]
      · rw [colCovers_succ, not_or] at h
        have hx : spriteCol vx n ≠ x := fun e => h.2 ⟨e, hb⟩
        rw [px, off x h.1]; simp [hx]
      · have hy' : y ≠ y' := fun e => hy e.symm
        rw [step, Canvas.toggle_disp, Display.pixel_flip, other x y' hy]; simp [hy']
      · rw [step, Canvas.toggle_collision, Bool.or_eq_true, coll, off _ fresh]
        constructor
        · rintro ((h | ⟨x, h, hx⟩) | h)
          · exact .inl h
          · exact .inr ⟨x, (colCovers_succ row vx n x).2 (.inl h), hx⟩
          · exact .inr ⟨_, (colCovers_succ row vx n _).2 (.inr ⟨rfl, hb⟩), h⟩
        · rintro (h | ⟨x, h, hx⟩)
          · exact .inl (.inl h)
          · rcases (colCovers_succ row vx n x).1 h with h | ⟨rfl, -⟩
            · exact .inl (.inr ⟨x, h, hx⟩)
            · exact .inr hx
    · have step : p.drawCols row vx y (n + 1) = p.drawCols row vx y n := by
        rw [Canvas.drawCols, upTo_succ, if_neg hb]; rfl
      have same : ∀ x, ColCovers row vx (n + 1) x ↔ ColCovers row vx n x := by
        intro x; rw [colCovers_succ]; simp [hb]
      simp only [step, same]
      exact ⟨on, off, other, coll⟩

/-- DRW of `rows` rows with every row in memory (42_address_and_display.md R205). -/
theorem drawRows_ok (x y : Nibble) (rows : Nat) (s : State) (h : spanOk s.i rows = true) :
    drawRows x y rows s = .next
      ((s.setDisp (Canvas.drawSprite s.mem s.i (s.getV x) (s.getV y) rows ⟨s.disp, false⟩).disp).setV flagReg
        (flagByte (Canvas.drawSprite s.mem s.i (s.getV x) (s.getV y) rows ⟨s.disp, false⟩).collision)) := by
  rw [drawRows, if_pos h]

/-- DRW with a row outside memory. -/
theorem drawRows_out (x y : Nibble) (rows : Nat) (s : State) (h : spanOk s.i rows = false) :
    drawRows x y rows s = raise .memoryOutOfBounds s := by
  rw [drawRows, if_neg (by simp [h])]

/-- The height of this hardware's DRW is N, also for N = 0 (D15, log 18). -/
theorem drawHeight_hw (n : Nibble) : drawHeight hw n = n.toNat := by
  unfold drawHeight
  split
  · next h => subst h; rfl
  · rfl

end Sys2Proof.Machine
end

