-- ==== Sys2Proof/Laws/Step.lean ====
section
/-! SUPPORT. What a step can do, said once: the three ways it answers. -/

namespace Sys2Proof.Machine

/-- After a completed step (43_keys_timers_memory.md R245). -/
theorem State.endStep_ready (t : State) (h : t.mode = .ready) : t.endStep = t.tick.nextInput := by
  simp [State.endStep, h]

/-- After a step that faulted (60_exceptions.md R283). -/
theorem State.endStep_halted (t : State) (r : Fault) (h : t.mode = .halted r) : t.endStep = t := by
  simp [State.endStep, h]

@[simp] theorem State.endStep_mode (t : State) : t.endStep.mode = t.mode := by
  unfold State.endStep; split <;> rfl

@[simp] theorem State.endStep_mem (t : State) : t.endStep.mem = t.mem := by
  unfold State.endStep; split <;> rfl

@[simp] theorem State.endStep_v (t : State) : t.endStep.v = t.v := by
  unfold State.endStep; split <;> rfl

@[simp] theorem State.endStep_getV (t : State) (x : Nibble) : t.endStep.getV x = t.getV x := by
  unfold State.endStep; split <;> rfl

@[simp] theorem State.endStep_pc (t : State) : t.endStep.pc = t.pc := by
  unfold State.endStep; split <;> rfl

@[simp] theorem State.endStep_i (t : State) : t.endStep.i = t.i := by
  unfold State.endStep; split <;> rfl

@[simp] theorem State.endStep_stack (t : State) : t.endStep.stack = t.stack := by
  unfold State.endStep; split <;> rfl

@[simp] theorem State.endStep_disp (t : State) : t.endStep.disp = t.disp := by
  unfold State.endStep; split <;> rfl

/-- The fetch reads the word at PC when both bytes are in memory (20_memory.md R62, R63). -/
theorem State.fetch_eq (s : State) (h : s.pc.toNat + 1 ≤ 0xFFF) :
    s.fetch = some (wordOfBytes (s.mem.read s.pc.toNat) (s.mem.read (s.pc.toNat + 1))) := by
  simp only [State.fetch]
  rw [if_neg (by omega)]

/-- The fetch fails when a byte lies outside memory (20_memory.md R63). -/
theorem State.fetch_none (s : State) (h : s.pc.toNat + 1 > 0xFFF) : s.fetch = none := by
  simp only [State.fetch]
  rw [if_pos h]

/-- A step in Halted (60_exceptions.md R285). -/
theorem step_halted (s : State) (r : Fault) (h : s.mode = .halted r) : step s = .next s := by
  simp [step, stepCycle, h]

/-- A step whose fetch fails. -/
theorem step_fetch_none (s : State) (h : s.mode = .ready) (hf : s.pc.toNat + 1 > 0xFFF) :
    step s = .next (s.halt .fetchOutOfBounds) := by
  simp [step, stepCycle, h, State.fetch_none s hf]

/-- A step whose fetch succeeds. -/
theorem step_fetched (s : State) (h : s.mode = .ready) (hf : s.pc.toNat + 1 ≤ 0xFFF) :
    step s = endStepOf (execDecoded
      (decodeBytes (s.mem.read s.pc.toNat) (s.mem.read (s.pc.toNat + 1))) s.advance) := by
  simp [step, stepCycle, h, State.fetch_eq s hf, decodeBytes]

/-- Everything a step that answers `t` can have done: nothing (Halted), a fetch fault, or one decoded word
run from PC + 2 with the end of the step after it. -/
theorem step_cases (s t : State) (h : step s = .next t) :
    (∃ r, s.mode = .halted r ∧ t = s) ∨
    (s.mode = .ready ∧ s.pc.toNat + 1 > 0xFFF ∧ t = s.halt .fetchOutOfBounds) ∨
    (s.mode = .ready ∧ s.pc.toNat + 1 ≤ 0xFFF ∧ ∃ u,
      execDecoded (decodeBytes (s.mem.read s.pc.toNat) (s.mem.read (s.pc.toNat + 1))) s.advance = .next u ∧
      t = u.endStep) := by
  cases hm : s.mode with
  | halted r =>
    rw [step_halted s r hm] at h
    exact .inl ⟨r, rfl, (Host.Outcome.next.inj h).symm⟩
  | ready =>
    by_cases hf : s.pc.toNat + 1 ≤ 0xFFF
    · rw [step_fetched s hm hf] at h
      refine .inr (.inr ⟨rfl, hf, ?_⟩)
      revert h
      generalize execDecoded _ s.advance = o
      intro h
      cases o with
      | next u => exact ⟨u, rfl, (Host.Outcome.next.inj h).symm⟩
      | fault r => cases h
      | refused r => cases h
    · rw [step_fetch_none s hm (by omega)] at h
      exact .inr (.inl ⟨rfl, by omega, (Host.Outcome.next.inj h).symm⟩)

end Sys2Proof.Machine
end

