-- ==== Sys2Proof/Laws/Frames.lean ====
section
/-! SUPPORT. The frame of each update of State: what `KeepsAllBut` says of it. -/

namespace Sys2Proof.Machine

/-- `KeepsAllBut`, component by component. -/
theorem keepsAllBut_intro {pieces : List Piece} {regs : Nibble → Bool} {s t : State}
    (mem : Piece.mem ∉ pieces → ∀ a, t.mem.read a = s.mem.read a) (pc : Piece.pc ∉ pieces → t.pc = s.pc)
    (i : Piece.i ∉ pieces → t.i = s.i) (stack : Piece.stack ∉ pieces → t.stack = s.stack)
    (dt : Piece.dt ∉ pieces → t.dt = s.dt) (st : Piece.st ∉ pieces → t.st = s.st)
    (disp : Piece.disp ∉ pieces → ∀ x y, t.disp.pixel x y = s.disp.pixel x y)
    (mode : Piece.mode ∉ pieces → t.mode = s.mode) (v : ∀ x, regs x = false → t.getV x = s.getV x)
    (inputs : t.inputs = s.inputs) (stepNo : t.stepNo = s.stepNo) : KeepsAllBut pieces regs s t := by
  refine ⟨fun p hp => ?_, v, inputs, stepNo⟩
  cases p with
  | mem => exact mem hp
  | pc => exact pc hp
  | i => exact i hp
  | stack => exact stack hp
  | dt => exact dt hp
  | st => exact st hp
  | disp => exact disp hp
  | mode => exact mode hp

/-- Nothing changed. -/
theorem keepsAllBut_refl (pieces : List Piece) (regs : Nibble → Bool) (s : State) : KeepsAllBut pieces regs s s := by
  apply keepsAllBut_intro <;> simp

/-- A register written. -/
theorem keepsAllBut_setV (s : State) (x : Nibble) (b : Byte) : KeepsAllBut [] (onlyReg x) s (s.setV x b) := by
  apply keepsAllBut_intro <;> simp [onlyReg]
  intro y h hxy
  exact absurd hxy.symm h

/-- A result and a flag written. -/
theorem keepsAllBut_setResultFlag (s : State) (x : Nibble) (b : Byte) (c : Bool) :
    KeepsAllBut [] (regAndFlag x) s (s.setResultFlag hw x b c) := by
  apply keepsAllBut_intro <;> simp [regAndFlag]
  intro y h hf
  rw [if_neg fun e => hf e.symm, if_neg fun e => h e.symm]

theorem keepsAllBut_setI (s : State) (a : Word) : KeepsAllBut [.i] noReg s (s.setI a) := by
  apply keepsAllBut_intro <;> simp

theorem keepsAllBut_setPc (s : State) (a : Word) : KeepsAllBut [.pc] noReg s (s.setPc a) := by
  apply keepsAllBut_intro <;> simp

theorem keepsAllBut_skipIf (s : State) (c : Bool) : KeepsAllBut [.pc] noReg s (s.skipIf c) := by
  apply keepsAllBut_intro <;> simp

theorem keepsAllBut_setDt (s : State) (b : Byte) : KeepsAllBut [.dt] noReg s (s.setDt b) := by
  apply keepsAllBut_intro <;> simp

theorem keepsAllBut_setSt (s : State) (b : Byte) : KeepsAllBut [.st] noReg s (s.setSt b) := by
  apply keepsAllBut_intro <;> simp

theorem keepsAllBut_setMem (s : State) (m : Memory) : KeepsAllBut [.mem] noReg s (s.setMem m) := by
  apply keepsAllBut_intro <;> simp

theorem keepsAllBut_setDisp (s : State) (d : Display) : KeepsAllBut [.disp] noReg s (s.setDisp d) := by
  apply keepsAllBut_intro <;> simp

/-- A larger frame. -/
theorem KeepsAllBut.mono {pieces pieces' : List Piece} {regs regs' : Nibble → Bool} {s t : State}
    (h : KeepsAllBut pieces regs s t) (hp : ∀ p ∈ pieces, p ∈ pieces') (hr : ∀ x, regs x = true → regs' x = true) :
    KeepsAllBut pieces' regs' s t := by
  obtain ⟨h1, h2, h3, h4⟩ := h
  refine ⟨fun p hn => h1 p fun hm => hn (hp p hm), fun x hx => h2 x ?_, h3, h4⟩
  cases hc : regs x
  · rfl
  · rw [hr x hc] at hx; cases hx

/-- One frame after another. -/
theorem KeepsAllBut.trans {pieces : List Piece} {regs : Nibble → Bool} {s t u : State}
    (h : KeepsAllBut pieces regs s t) (h' : KeepsAllBut pieces regs t u) : KeepsAllBut pieces regs s u := by
  obtain ⟨a1, a2, a3, a4⟩ := h
  obtain ⟨b1, b2, b3, b4⟩ := h'
  apply keepsAllBut_intro
  · exact fun hp a => (b1 .mem hp a).trans (a1 .mem hp a)
  · exact fun hp => (b1 .pc hp).trans (a1 .pc hp)
  · exact fun hp => (b1 .i hp).trans (a1 .i hp)
  · exact fun hp => (b1 .stack hp).trans (a1 .stack hp)
  · exact fun hp => (b1 .dt hp).trans (a1 .dt hp)
  · exact fun hp => (b1 .st hp).trans (a1 .st hp)
  · exact fun hp x y => (b1 .disp hp x y).trans (a1 .disp hp x y)
  · exact fun hp => (b1 .mode hp).trans (a1 .mode hp)
  · exact fun x hx => (b2 x hx).trans (a2 x hx)
  · exact b3.trans a3
  · exact b4.trans a4

end Sys2Proof.Machine
end

