-- ==== Sys2Proof/Laws/PerInstr.lean ====
section
/-! SUPPORT. The opcode map, instruction by instruction: the encoding of an instruction matches its row's
mask and value (30_encoding.md R100). -/

namespace Sys2Proof.Laws.OpcodeMap

/-- The word of `i` matches the row of `i`. -/
def Statement (i : Instr) : Prop := encode i &&& (opcodeRow i).mask = (opcodeRow i).value

/-- A family's mask keeps the high nibble and drops the twelve low bits. -/
theorem addr_row (o : Nibble) (nnn : Addr12) : wordAddr o nnn &&& 0xF000#16 = wordAddr o 0#12 := by
  apply BitVec.eq_of_getLsbD_eq
  intro k hk
  have hm : (0xF000#16).getLsbD k = decide (12 ≤ k) := by
    revert hk; revert k; decide
  rw [BitVec.getLsbD_and, hm, wordAddr, wordAddr, BitVec.getLsbD_append, BitVec.getLsbD_append]
  by_cases h : k < 12
  · simp [h]
  · simp [h]; omega

/-- A mask that keeps the high nibble and N. -/
theorem regReg_row (o x y n : Nibble) : wordRegReg o x y n &&& 0xF00F#16 = wordRegReg o 0#4 0#4 n := by
  apply BitVec.eq_of_getLsbD_eq
  intro k hk
  have hm : (0xF00F#16).getLsbD k = (decide (12 ≤ k) || decide (k < 4)) := by
    revert hk; revert k; decide
  rw [BitVec.getLsbD_and, hm]
  simp only [wordRegReg, BitVec.getLsbD_append]
  by_cases h : k < 12 <;> by_cases h4 : k < 4 <;> by_cases h8 : k < 8 <;> simp [h, h4, h8] <;> omega

/-- A mask that keeps the high nibble and KK. -/
theorem regImm_row (o x : Nibble) (kk : Byte) : wordRegImm o x kk &&& 0xF0FF#16 = wordRegImm o 0#4 kk := by
  apply BitVec.eq_of_getLsbD_eq
  intro k hk
  have hm : (0xF0FF#16).getLsbD k = (decide (12 ≤ k) || decide (k < 8)) := by
    revert hk; revert k; decide
  rw [BitVec.getLsbD_and, hm]
  simp only [wordRegImm, BitVec.getLsbD_append]
  by_cases h : k < 12 <;> by_cases h8 : k < 8
  all_goals simp [h, h8]
  all_goals omega

/-- A register format seen as an address format: its mask may be the family's. -/
theorem regImm_family (o x : Nibble) (kk : Byte) : wordRegImm o x kk &&& 0xF000#16 = wordAddr o 0#12 := addr_row o _

theorem regReg_family (o x y n : Nibble) : wordRegReg o x y n &&& 0xF000#16 = wordAddr o 0#12 := addr_row o _

theorem cls : Statement .cls := rfl
theorem ret : Statement .ret := rfl
theorem sys (nnn : Addr12) : Statement (.sys nnn) := addr_row 0x0#4 nnn
theorem jp (nnn : Addr12) : Statement (.jp nnn) := addr_row 0x1#4 nnn
theorem call (nnn : Addr12) : Statement (.call nnn) := addr_row 0x2#4 nnn
theorem seImm (x : Nibble) (kk : Byte) : Statement (.seImm x kk) := regImm_family 0x3#4 x kk
theorem sneImm (x : Nibble) (kk : Byte) : Statement (.sneImm x kk) := regImm_family 0x4#4 x kk
theorem seReg (x y : Nibble) : Statement (.seReg x y) := regReg_row 0x5#4 x y 0x0#4
theorem ldImm (x : Nibble) (kk : Byte) : Statement (.ldImm x kk) := regImm_family 0x6#4 x kk
theorem addImm (x : Nibble) (kk : Byte) : Statement (.addImm x kk) := regImm_family 0x7#4 x kk
theorem mov (x y : Nibble) : Statement (.mov x y) := regReg_row 0x8#4 x y 0x0#4
theorem or (x y : Nibble) : Statement (.or x y) := regReg_row 0x8#4 x y 0x1#4
theorem and (x y : Nibble) : Statement (.and x y) := regReg_row 0x8#4 x y 0x2#4
theorem xor (x y : Nibble) : Statement (.xor x y) := regReg_row 0x8#4 x y 0x3#4
theorem add (x y : Nibble) : Statement (.add x y) := regReg_row 0x8#4 x y 0x4#4
theorem sub (x y : Nibble) : Statement (.sub x y) := regReg_row 0x8#4 x y 0x5#4
theorem shr (x y : Nibble) : Statement (.shr x y) := regReg_row 0x8#4 x y 0x6#4
theorem subn (x y : Nibble) : Statement (.subn x y) := regReg_row 0x8#4 x y 0x7#4
theorem shl (x y : Nibble) : Statement (.shl x y) := regReg_row 0x8#4 x y 0xE#4
theorem sneReg (x y : Nibble) : Statement (.sneReg x y) := regReg_row 0x9#4 x y 0x0#4
theorem ldI (nnn : Addr12) : Statement (.ldI nnn) := addr_row 0xA#4 nnn
theorem jpV0 (nnn : Addr12) : Statement (.jpV0 nnn) := addr_row 0xB#4 nnn
theorem rnd (x : Nibble) (kk : Byte) : Statement (.rnd x kk) := regImm_family 0xC#4 x kk
theorem drw (x y n : Nibble) : Statement (.drw x y n) := regReg_family 0xD#4 x y n
theorem skp (x : Nibble) : Statement (.skp x) := regImm_row 0xE#4 x 0x9E#8
theorem sknp (x : Nibble) : Statement (.sknp x) := regImm_row 0xE#4 x 0xA1#8
theorem ldVxDt (x : Nibble) : Statement (.ldVxDt x) := regImm_row 0xF#4 x 0x07#8
theorem ldVxK (x : Nibble) : Statement (.ldVxK x) := regImm_row 0xF#4 x 0x0A#8
theorem ldDtVx (x : Nibble) : Statement (.ldDtVx x) := regImm_row 0xF#4 x 0x15#8
theorem ldStVx (x : Nibble) : Statement (.ldStVx x) := regImm_row 0xF#4 x 0x18#8
theorem addI (x : Nibble) : Statement (.addI x) := regImm_row 0xF#4 x 0x1E#8
theorem ldF (x : Nibble) : Statement (.ldF x) := regImm_row 0xF#4 x 0x29#8
theorem ldB (x : Nibble) : Statement (.ldB x) := regImm_row 0xF#4 x 0x33#8
theorem storeRegs (x : Nibble) : Statement (.storeRegs x) := regImm_row 0xF#4 x 0x55#8
theorem loadRegs (x : Nibble) : Statement (.loadRegs x) := regImm_row 0xF#4 x 0x65#8

end Sys2Proof.Laws.OpcodeMap
end

