-- ==== Sys2Proof/Tests/Slice0.lean ====
section
/-! SUPPORT. Small tests, their expected results from 95_test_vectors.md (the vector is named) or from the
spec's encodings, and for each statement with hypotheses a state and operands that meet them. -/

namespace Sys2Proof.Tests

open Sys2Proof.Machine

/-! ## Well-formedness: the one check, and the terms it refuses -/

theorem test_wf_sys : WellFormed (.sys 0x123) = true := by decide
theorem test_wf_refuses_sys_as_cls : WellFormed (.sys 0x0E0) = false := by decide
theorem test_wf_refuses_sys_as_ret : WellFormed (.sys 0x0EE) = false := by decide

/-! ## Decoding: each constructor from its word, bit by bit from 30_encoding.md R92 and R100 -/

theorem test_decode_cls : decode 0b0000000011100000 = .instr .cls := by decide
theorem test_decode_ret : decode 0b0000000011101110 = .instr .ret := by decide
theorem test_decode_sys : decode 0b0000000111100000 = .instr (.sys 0x1E0) := by decide
theorem test_decode_jp : decode 0b0001101010111100 = .instr (.jp 0xABC) := by decide
theorem test_decode_call : decode 0b0010101010111100 = .instr (.call 0xABC) := by decide
theorem test_decode_seImm : decode 0b0011101001000010 = .instr (.seImm 0xA 0x42) := by decide
theorem test_decode_sneImm : decode 0b0100101001000010 = .instr (.sneImm 0xA 0x42) := by decide
theorem test_decode_seReg : decode 0b0101101010110000 = .instr (.seReg 0xA 0xB) := by decide
theorem test_decode_ldImm : decode 0b0110101001000010 = .instr (.ldImm 0xA 0x42) := by decide
theorem test_decode_addImm : decode 0b0111101001000010 = .instr (.addImm 0xA 0x42) := by decide
theorem test_decode_mov : decode 0b1000101010110000 = .instr (.mov 0xA 0xB) := by decide
theorem test_decode_or : decode 0b1000101010110001 = .instr (.or 0xA 0xB) := by decide
theorem test_decode_and : decode 0b1000101010110010 = .instr (.and 0xA 0xB) := by decide
theorem test_decode_xor : decode 0b1000101010110011 = .instr (.xor 0xA 0xB) := by decide
theorem test_decode_add : decode 0b1000101010110100 = .instr (.add 0xA 0xB) := by decide
theorem test_decode_sub : decode 0b1000101010110101 = .instr (.sub 0xA 0xB) := by decide
theorem test_decode_shr : decode 0b1000101010110110 = .instr (.shr 0xA 0xB) := by decide
theorem test_decode_subn : decode 0b1000101010110111 = .instr (.subn 0xA 0xB) := by decide
theorem test_decode_shl : decode 0b1000101010111110 = .instr (.shl 0xA 0xB) := by decide
theorem test_decode_sneReg : decode 0b1001101010110000 = .instr (.sneReg 0xA 0xB) := by decide
theorem test_decode_ldI : decode 0b1010000100100011 = .instr (.ldI 0x123) := by decide
theorem test_decode_jpV0 : decode 0b1011000100100011 = .instr (.jpV0 0x123) := by decide
theorem test_decode_rnd : decode 0b1100101000001111 = .instr (.rnd 0xA 0x0F) := by decide
theorem test_decode_drw : decode 0b1101101010110101 = .instr (.drw 0xA 0xB 5) := by decide
theorem test_decode_skp : decode 0b1110101010011110 = .instr (.skp 0xA) := by decide
theorem test_decode_sknp : decode 0b1110101010100001 = .instr (.sknp 0xA) := by decide
theorem test_decode_ldVxDt : decode 0b1111101000000111 = .instr (.ldVxDt 0xA) := by decide
theorem test_decode_ldVxK : decode 0b1111101000001010 = .instr (.ldVxK 0xA) := by decide
theorem test_decode_ldDtVx : decode 0b1111101000010101 = .instr (.ldDtVx 0xA) := by decide
theorem test_decode_ldStVx : decode 0b1111101000011000 = .instr (.ldStVx 0xA) := by decide
theorem test_decode_addI : decode 0b1111101000011110 = .instr (.addI 0xA) := by decide
theorem test_decode_ldF : decode 0b1111101000101001 = .instr (.ldF 0xA) := by decide
theorem test_decode_ldB : decode 0b1111101000110011 = .instr (.ldB 0xA) := by decide
theorem test_decode_storeRegs : decode 0b1111101001010101 = .instr (.storeRegs 0xA) := by decide
theorem test_decode_loadRegs : decode 0b1111101001100101 = .instr (.loadRegs 0xA) := by decide
theorem test_decode_zero : decode 0x0000 = .instr (.sys 0) := by decide
theorem test_decode_unrecognized_5 : decode 0x5AB1 = .unrecognized 0x5AB1 := by decide
theorem test_decode_unrecognized_8 : decode 0x8AB8 = .unrecognized 0x8AB8 := by decide
theorem test_decode_unrecognized_9 : decode 0x9ABF = .unrecognized 0x9ABF := by decide
theorem test_decode_unrecognized_E : decode 0xEA9F = .unrecognized 0xEA9F := by decide
theorem test_decode_unrecognized_F : decode 0xFAFF = .unrecognized 0xFAFF := by decide
theorem test_decodeTableWord : decodeTableWord 16 0xD01F = some (.drw 0 1 15) := by decide
theorem test_decodeTableWord_none : decodeTableWord 16 0x800F = none := by decide

/-! ## Steps -/

/-- The reset state, register by register, with a word at PC. -/
def start (w : Word) (regs : List (Nibble × Byte)) : State :=
  (regs.foldl (fun s r => s.setV r.1 r.2) State.reset).placeWord w

/-- Bytes put at an address. -/
def withBytes (a : Nat) (bs : List Byte) (s : State) : State := s.setMem (s.mem.writeBytes a bs)

/-- The keys down, the keyboard's pick and the random byte of the next step. -/
def withInput (keys : BitVec 16) (pick : Nibble) (rand : Byte) (s : State) : State := s.queueInput ⟨keys, pick, rand⟩

/-- What `f` sees after one step; `none` if the step answers no state. -/
def after {α : Type} (s : State) (f : State → α) : Option α :=
  match step s with
  | .next t => some (f t)
  | .fault _ => none
  | .refused _ => none

/-- F1 -/
theorem test_cls : after ((start 0x00E0 []).setDisp (State.reset.disp.flip 3 4)) (fun t => (t.disp.pixel 3 4, t.pc)) =
    some (false, 0x202) := by decide
/-- F2 -/
theorem test_ret : after ((start 0x00EE []).push 0x206) (fun t => (t.pc, t.stack)) = some (0x206, []) := by decide
/-- F3, X1 -/
theorem test_ret_empty : after ((start 0x00EE []).setDt 5) (fun t => (t.mode, t.pc, t.dt)) =
    some (.halted .stackUnderflow, 0x200, 5) := by decide
/-- F4 -/
theorem test_sys : after (start 0x0123 []) State.pc = some 0x202 := by decide
/-- F5 -/
theorem test_jp : after (start 0x1ABC []) State.pc = some 0xABC := by decide
/-- F8 -/
theorem test_call : after (start 0x2300 []) (fun t => (t.stack, t.pc)) = some ([0x202], 0x300) := by decide
/-- F9 -/
theorem test_call_at_end : after ((State.reset.setPc 0xFFE).placeWord 0x2400) (fun t => (t.stack, t.pc)) =
    some ([0x1000], 0x400) := by decide
/-- F10 -/
theorem test_seImm : after (start 0x3342 [(3, 0x42)]) State.pc = some 0x204 := by decide
/-- F11 -/
theorem test_seImm_not : after (start 0x3342 [(3, 0x41)]) State.pc = some 0x202 := by decide
/-- F12 -/
theorem test_sneImm : after (start 0x4342 [(3, 0x41)]) State.pc = some 0x204 := by decide
/-- F13 -/
theorem test_sneImm_not : after (start 0x4342 [(3, 0x42)]) State.pc = some 0x202 := by decide
/-- F14 -/
theorem test_seReg : after (start 0x5120 [(1, 7), (2, 7)]) State.pc = some 0x204 := by decide
/-- F15 -/
theorem test_sneReg : after (start 0x9120 [(1, 7), (2, 8)]) State.pc = some 0x204 := by decide
/-- F16 -/
theorem test_sneReg_not : after (start 0x9120 [(1, 7), (2, 7)]) State.pc = some 0x202 := by decide
/-- F17 -/
theorem test_skip_over_the_end : after ((State.reset.setPc 0xFFC).placeWord 0x3000) (fun t => (t.pc, t.mode)) =
    some (0x1000, .ready) := by decide
/-- F19 -/
theorem test_jpV0_wraps : after (start 0xBFFF [(0, 0xFF)]) State.pc = some 0x0FE := by decide
/-- E11 -/
theorem test_unrecognized : after ((start 0x5121 []).setDt 2) (fun t => (t.pc, t.dt, t.mode)) = some (0x202, 1, .ready) := by
  decide

/-- A1 -/
theorem test_ldImm : after (start 0x6A42 []) (fun t => t.getV 0xA) = some 0x42 := by decide
/-- A2 -/
theorem test_addImm : after (start 0x7A01 [(0xA, 0xFF), (0xF, 0x55)]) (fun t => (t.getV 0xA, t.getV 0xF)) =
    some (0x00, 0x55) := by decide
/-- A4 -/
theorem test_mov : after (start 0x8120 [(2, 0x99)]) (fun t => t.getV 1) = some 0x99 := by decide
/-- A5 -/
theorem test_or : after (start 0x8121 [(1, 0xF0), (2, 0x0F), (0xF, 0x55)]) (fun t => (t.getV 1, t.getV 0xF)) =
    some (0xFF, 0x55) := by decide
/-- A6 -/
theorem test_and : after (start 0x8122 [(1, 0xF0), (2, 0x3C)]) (fun t => t.getV 1) = some 0x30 := by decide
/-- A7 -/
theorem test_xor : after (start 0x8123 [(1, 0xF0), (2, 0x3C)]) (fun t => t.getV 1) = some 0xCC := by decide
/-- A10 -/
theorem test_add_into_vf : after (start 0x8F14 [(0xF, 0xFF), (1, 0x01)]) (fun t => t.getV 0xF) = some 1 := by decide
/-- A11 -/
theorem test_add_from_vf : after (start 0x81F4 [(1, 0x10), (0xF, 0x01)]) (fun t => (t.getV 1, t.getV 0xF)) =
    some (0x11, 0) := by decide
/-- E3 -/
theorem test_sub : after (start 0x8125 [(1, 0x01), (2, 0x02)]) (fun t => (t.getV 1, t.getV 0xF)) = some (0xFF, 0) := by decide
/-- A12 -/
theorem test_sub_equal : after (start 0x8125 [(1, 0x33), (2, 0x33)]) (fun t => (t.getV 1, t.getV 0xF)) = some (0, 1) := by
  decide
/-- A15 -/
theorem test_shr : after (start 0x8126 [(1, 0x01), (2, 0xFF)]) (fun t => (t.getV 1, t.getV 0xF)) = some (0, 1) := by decide
/-- A16 -/
theorem test_shr_vf : after (start 0x8FF6 [(0xF, 0x03)]) (fun t => t.getV 0xF) = some 1 := by decide
/-- A17 -/
theorem test_subn : after (start 0x8127 [(1, 0x01), (2, 0x03)]) (fun t => (t.getV 1, t.getV 0xF)) = some (2, 1) := by decide
/-- A18 -/
theorem test_subn_borrow : after (start 0x8127 [(1, 0x02), (2, 0x01)]) (fun t => (t.getV 1, t.getV 0xF)) =
    some (0xFF, 0) := by decide
/-- A20 -/
theorem test_shl : after (start 0x810E [(1, 0x81)]) (fun t => (t.getV 1, t.getV 0xF)) = some (2, 1) := by decide
/-- A22 -/
theorem test_shl_vf : after (start 0x8FFE [(0xF, 0x81)]) (fun t => t.getV 0xF) = some 1 := by decide
/-- A23 -/
theorem test_rnd : after (withInput 0 0 0xAB (start 0xC10F [])) (fun t => (t.getV 1, t.inputs)) = some (0x0B, []) := by decide

/-- D1 -/
theorem test_ldI : after (start 0xA123 []) State.i = some 0x123 := by decide
/-- D3 -/
theorem test_drw_wraps_the_origin :
    after (withBytes 0x300 [0x81] ((start 0xD011 [(0, 70), (1, 40)]).setI 0x300))
      (fun t => (t.disp.pixel 6 8, t.disp.pixel 13 8, t.disp.pixel 7 8, t.getV 0xF)) = some (true, true, false, 0) := by decide
/-- D4 -/
theorem test_drw_collides :
    after (withBytes 0x300 [0xC0] (((start 0xD011 []).setDisp (State.reset.disp.flip 1 0)).setI 0x300))
      (fun t => (t.disp.pixel 0 0, t.disp.pixel 1 0, t.getV 0xF)) = some (true, false, 1) := by decide
/-- K1 -/
theorem test_skp : after (withInput 0x0080 0 0 (start 0xE19E [(1, 7)])) State.pc = some 0x204 := by decide
/-- K4 -/
theorem test_skp_out : after (start 0xE19E [(1, 0x10)]) (fun t => (t.mode, t.pc)) =
    some (.halted .keyIndexOutOfRange, 0x200) := by decide
/-- K3 -/
theorem test_sknp : after (withInput 0 0 0 (start 0xE1A1 [(1, 7)])) State.pc = some 0x204 := by decide
/-- K5 -/
theorem test_ldVxDt : after ((start 0xF107 []).setDt 9) (fun t => (t.getV 1, t.dt)) = some (9, 8) := by decide
/-- K6 -/
theorem test_ldVxK_waits : after (withInput 0 0 0 (start 0xF20A [(2, 5)])) (fun t => (t.pc, t.getV 2)) = some (0x200, 5) := by
  decide
/-- K7: keys 3 and 9, the keyboard picks from 4 on -/
theorem test_ldVxK : after (withInput 0x0208 4 0 (start 0xF20A [])) (fun t => (t.pc, t.getV 2)) = some (0x202, 9) := by decide
/-- K8 -/
theorem test_ldDtVx : after (start 0xF115 [(1, 5)]) State.dt = some 4 := by decide
/-- K9 -/
theorem test_ldStVx : after (start 0xF118 [(1, 1)]) State.st = some 0 := by decide
/-- K10 -/
theorem test_addI : after ((start 0xF11E [(1, 0x01)]).setI 0x0FFF) State.i = some 0x1000 := by decide
/-- K11 -/
theorem test_addI_wraps : after ((start 0xF11E [(1, 0x01)]).setI 0xFFFF) State.i = some 0x0000 := by decide
/-- K12 -/
theorem test_ldF : after (start 0xF129 [(1, 0x0A)]) State.i = some 0x032 := by decide
/-- K13 -/
theorem test_ldF_not_masked : after (start 0xF129 [(1, 0x10)]) State.i = some 0x050 := by decide
/-- K15 -/
theorem test_ldB : after ((start 0xF133 [(1, 0x7B)]).setI 0x300)
    (fun t => [t.mem.read 0x300, t.mem.read 0x301, t.mem.read 0x302]) = some [1, 2, 3] := by decide
/-- K16 -/
theorem test_ldB_at_the_end : after ((start 0xF133 [(1, 9)]).setI 0xFFD)
    (fun t => ([t.mem.read 0xFFD, t.mem.read 0xFFE, t.mem.read 0xFFF], t.mem.wf)) = some ([0, 0, 9], true) := by decide
/-- The example of 43_keys_timers_memory.md R243 -/
theorem test_storeRegs : after ((start 0xF155 [(0, 1), (1, 2), (2, 3)]).setI 0x400)
    (fun t => [t.mem.read 0x400, t.mem.read 0x401, t.mem.read 0x402]) = some [1, 2, 0] := by decide
/-- K19 -/
theorem test_storeRegs_out : after ((start 0xF155 [(0, 0xAA)]).setI 0xFFF) (fun t => (t.mode, t.pc, t.mem.read 0xFFF)) =
    some (.halted .memoryOutOfBounds, 0x200, 0) := by decide
/-- The example of 43_keys_timers_memory.md R244 -/
theorem test_loadRegs : after (withBytes 0x300 [1, 2, 3, 4] ((start 0xF265 []).setI 0x300))
    (fun t => [t.getV 0, t.getV 1, t.getV 2, t.getV 3]) = some [1, 2, 3, 0] := by decide
/-- K21 -/
theorem test_loadRegs_out : after ((start 0xFF65 []).setI 0xFF1) State.mode = some (.halted .memoryOutOfBounds) := by decide
/-- X2 -/
theorem test_halted_step : after (State.reset.halt .stackUnderflow) id = some (State.reset.halt .stackUnderflow) := by decide
/-- X4 -/
theorem test_fetch_last_word : after ((State.reset.setPc 0xFFE).placeWord 0x1200) State.pc = some 0x200 := by decide
/-- X5 -/
theorem test_fetch_out : after (State.reset.setPc 0xFFF) (fun t => (t.mode, t.pc)) =
    some (.halted .fetchOutOfBounds, 0xFFF) := by decide

/-! ## Witnesses: for each statement with hypotheses, something that meets them -/

theorem witness_encodeThenDecode : WellFormed (.drw 0 1 15) = true ∧ WellFormed (.sys 0xFFF) = true := by decide
theorem witness_decodedWordMatches : decode 0x8124 = .instr (.add 1 2) := by decide
theorem witness_hostReset_fits : [0x60#8, 0x05#8].length ≤ 3584 := by decide
theorem witness_hostReset_full : (List.replicate 3584 0#8).length ≤ 3584 := by
  rw [List.length_replicate]
theorem witness_hostReset_long : 3584 < (List.replicate 3585 0#8).length := by
  rw [List.length_replicate]; exact Nat.lt_succ_self 3584

/-- A state about to run a word at 0x200: what the statements about a fetched word assume. -/
theorem witness_stepRuns : let s := start 0x6A42 []
    s.mode = .ready ∧ s.pc.toNat + 1 ≤ 0xFFF ∧
    decodeBytes (s.mem.read s.pc.toNat) (s.mem.read (s.pc.toNat + 1)) = .instr (.ldImm 0xA 0x42) ∧
    WellFormed (.ldImm 0xA 0x42) = true := by decide
theorem witness_stepRuns_ready : ∃ t, exec (.ldImm 0xA 0x42) { State.reset with pc := 0x202 } = .next t ∧ t.mode = .ready :=
  ⟨_, rfl, rfl⟩
theorem witness_stepRuns_halted :
    ∃ t, exec .ret { State.reset with pc := 0x202 } = .next t ∧ t.mode = .halted .stackUnderflow := ⟨_, rfl, rfl⟩
theorem witness_unrecognized : let s := start 0xE19F []
    s.mode = .ready ∧ s.pc.toNat + 1 ≤ 0xFFF ∧
    decodeBytes (s.mem.read s.pc.toNat) (s.mem.read (s.pc.toNat + 1)) = .unrecognized 0xE19F := by decide
theorem witness_fetchOutside : let s := State.reset.setPc 0xFFF
    s.mode = .ready ∧ s.pc.toNat + 1 > 0xFFF := by decide
theorem witness_faultingStep : ∃ t, step (start 0x00EE []) = .next t ∧ (start 0x00EE []).mode = .ready ∧
    t.mode = .halted .stackUnderflow := ⟨_, rfl, rfl, rfl⟩
theorem witness_haltedStep : (State.reset.halt .memoryOutOfBounds).mode = .halted .memoryOutOfBounds := rfl
theorem witness_timersDown : ∃ t, step (start 0x6A42 []) = .next t ∧ (start 0x6A42 []).mode = .ready ∧ t.mode = .ready ∧
    (∀ x, decodeBytes 0x6A 0x42 ≠ .instr (.ldDtVx x)) ∧ (∀ x, decodeBytes 0x6A 0x42 ≠ .instr (.ldStVx x)) :=
  ⟨_, rfl, rfl, rfl, by decide⟩
theorem witness_timerWrites : (start 0xF115 []).mode = .ready ∧ (start 0xF115 []).pc.toNat + 1 ≤ 0xFFF ∧
    decodeBytes 0xF1 0x15 = .instr (.ldDtVx 1) ∧ decodeBytes 0xF1 0x18 = .instr (.ldStVx 1) ∧
    decodeBytes 0xF1 0x07 = .instr (.ldVxDt 1) := by decide
theorem witness_inv : State.reset.mem.wf = true ∧ State.reset.pc.toNat ≤ 0x1002 ∧
    (∀ a ∈ State.reset.stack, a.toNat ≤ 0x1000) ∧ ∃ t, step State.reset = .next t := by
  refine ⟨by decide, by decide, ?_, ⟨_, rfl⟩⟩
  intro a h
  cases h
/-- Two states that agree on the aggregate and on the coming step's inputs, and differ beyond it. -/
theorem witness_determinism : let s := withInput 0x0010 2 7 State.reset
    let s' := withInput 0 0 0 s
    s ≠ s' ∧ s.observe = s'.observe ∧ s.input.keyDown = s'.input.keyDown ∧
    firstKeyDown s.input = firstKeyDown s'.input ∧ s.input.randByte = s'.input.randByte := by decide
theorem witness_inputs_unseen : let s := withInput 0x0010 2 7 State.reset
    let s' := withInput 0x0001 5 9 State.reset
    s.observe = s'.observe ∧ s.input ≠ s'.input ∧ readsKeyboard (.jp 0) = false ∧ readsRandom (.jp 0) = false := by decide
theorem witness_faultOf : faultOf .ret State.reset = some .stackUnderflow ∧ faultOf .cls State.reset = none ∧
    faultOf (.drw 0 0 2) (State.reset.setI 0xFFF) = some .memoryOutOfBounds ∧
    faultOf (.drw 0 0 1) (State.reset.setI 0xFFF) = none ∧ State.reset.mode = .ready := by decide
theorem witness_tableFrame : ∃ t, exec (.add 1 2) State.reset = .next t ∧ State.reset.mode = .ready ∧ t.mode = .ready :=
  ⟨_, rfl, rfl, rfl⟩
theorem witness_change_mem : let s := (start 0xF133 [(1, 9)]).setI 0x300
    after s (fun t => decide (t.mem.read 0x302 ≠ s.mem.read 0x302)) = some true := by decide
theorem witness_change_disp : let s := start 0xD001 []
    after s (fun t => t.disp.pixel 0 0 != s.disp.pixel 0 0) = some true := by decide
theorem witness_change_stack : let s := start 0x2300 []
    after s (fun t => decide (t.stack ≠ s.stack)) = some true := by decide
theorem witness_change_i : let s := start 0xA123 []
    after s (fun t => decide (t.i ≠ s.i)) = some true := by decide
theorem witness_ret : (State.reset.push 0x206).stack = 0x206 :: [] ∧ State.reset.stack = [] := by decide
/-- A stack of capacity 1 that is full, and one that is not. -/
theorem witness_callWith : ({ hw with stackCapacity := some 1 } : Config).stackCapacity = some 1 ∧
    (State.reset.push 0x206).stack.length = 1 ∧ State.reset.stack.length ≠ 1 := by decide
theorem witness_callThenRet : ∃ t, exec (.call 0x300) State.reset = .next t ∧
    ({ State.reset with pc := 0x310, stack := t.stack } : State).stack = t.stack := ⟨_, rfl, rfl⟩
theorem witness_skips : (State.reset.setV 3 0x42).getV 3 = 0x42 ∧ (State.reset.setV 3 0x41).getV 3 ≠ 0x42 ∧
    State.reset.getV 1 = State.reset.getV 2 ∧ (State.reset.setV 1 7).getV 1 ≠ (State.reset.setV 1 7).getV 2 := by decide
theorem witness_dest_not_vf : (1 : Nibble) ≠ 0xF#4 := by decide
theorem witness_rnd : (0x0F#8).getLsbD 7 = false ∧ (withInput 0 0 0xAB State.reset).inputs = ⟨0, 0, 0xAB⟩ :: [] := by decide
theorem witness_toggle_other : (1 : Fin 64) ≠ 0 ∨ (0 : Fin 32) ≠ 0 := by decide
/-- The sprite of one row 0x80 at (63, 31): covered there, not elsewhere; and both bounds cases of DRW. -/
theorem witness_drw : let s := withBytes 0x300 [0x80] ((State.reset.setV 0 63).setV 1 31)
    SpriteCovers s.mem 0x300 (s.getV 0) (s.getV 1) 1 63 31 ∧ ¬ SpriteCovers s.mem 0x300 (s.getV 0) (s.getV 1) 1 0 0 ∧
    (0x300#16).toNat + ((1#4).toNat - 1) ≤ 0xFFF ∧ (0xFFF#16).toNat + ((1#4).toNat - 1) ≤ 0xFFF := by
  refine ⟨⟨0, by decide, 0, by decide, by decide, by decide, by decide⟩, ?_, by decide, by decide⟩
  rintro ⟨r, hr, c, -, -, hy, -⟩
  obtain rfl : r = 0 := by omega
  exact absurd hy (by decide)
/-- N = 0 meets the premise of the DRW statement although I is at the last byte, and covers no pixel. -/
theorem witness_drw_blank : let s := State.reset.setI 0xFFF
    ((0#4 : Nibble) = 0x0#4 ∨ s.i.toNat + ((0#4).toNat - 1) ≤ 0xFFF) ∧
    ¬ SpriteCovers s.mem s.i (s.getV 0) (s.getV 1) (0#4).toNat 0 0 :=
  ⟨.inl rfl, fun ⟨_, hr, _⟩ => absurd hr (Nat.not_lt_zero _)⟩
/-- With the pixel on, that draw collides; with it off, it does not. -/
theorem witness_drw_collision : (State.reset.disp.flip 63 31).pixel 63 31 = true ∧ State.reset.disp.pixel 63 31 = false := by
  decide
theorem witness_drawTwice : let s := (withBytes 0x300 [0x80] State.reset).setI 0x300
    s.i.toNat + ((1#4).toNat - 1) ≤ 0xFFF ∧ ∃ t u, exec (.drw 0 15 1) s = .next t ∧
      t.getV 0 = s.getV 0 ∧ t.getV 15 = s.getV 15 ∧ exec (.drw 0 15 1) t = .next u :=
  ⟨by decide, _, _, rfl, rfl, rfl, rfl⟩
theorem witness_outOfBounds : let s := State.reset.setI 0xFFE
    (3 : Nibble) ≠ 0x0#4 ∧ s.i.toNat + ((3#4).toNat - 1) > 0xFFF ∧ s.i.toNat + 2 > 0xFFF ∧
    s.i.toNat + (2#4).toNat > 0xFFF := by decide
theorem witness_keySkips : (State.reset.getV 5).toNat ≤ 15 ∧ ((State.reset.setV 5 15).getV 5).toNat ≤ 15 ∧
    ((State.reset.setV 5 16).getV 5).toNat > 15 := by decide
theorem witness_keyWait : (withInput 0x8000 0 0 State.reset).input.keyDown ≠ 0#16 ∧
    (withInput 0 0 0 State.reset).input.keyDown = 0#16 := by decide
theorem witness_firstKey : firstKeyDown ⟨0x0208, 4, 0⟩ = some 9 ∧ firstKeyDown ⟨0x0208, 10, 0⟩ = some 3 ∧
    firstKeyDown ⟨0, 4, 0⟩ = none ∧ (0x0208#16).getLsbD (9#4).toNat = true := by decide
theorem witness_bcd : State.reset.mem.wf = true ∧ (State.reset.setI 0xFFD).i.toNat + 2 ≤ 0xFFF ∧
    (State.reset.setI 0xFFE).i.toNat + 2 > 0xFFF := by decide
theorem witness_blocks : State.reset.mem.wf = true ∧ (State.reset.setI 0xFF0).i.toNat + (15#4).toNat ≤ 0xFFF ∧
    (State.reset.setI 0xFF1).i.toNat + (15#4).toNat > 0xFFF ∧ (15#4).toNat ≤ (15#4).toNat := by decide
theorem witness_storeThenLoad : let s := (State.reset.setV 0 1).setI 0x400
    s.mem.wf = true ∧ s.i.toNat + (1#4).toNat ≤ 0xFFF ∧
    ∃ t w, exec (.storeRegs 1) s = .next t ∧ t.i = s.i ∧ exec (.loadRegs 1) t = .next w :=
  ⟨by decide, by decide, _, _, rfl, rfl, rfl⟩
theorem witness_storedWord : let s := State.reset.setI 0x400
    s.mem.wf = true ∧ 1 ≤ (1#4).toNat ∧ s.i.toNat + (1#4).toNat ≤ 0xFFF ∧ ∃ t, exec (.storeRegs 1) s = .next t :=
  ⟨by decide, by decide, by decide, _, rfl⟩
theorem witness_canonical : Memory.wf [(0x300, 1#8), (0x301, 2#8)] = true ∧
    Memory.write (Memory.write [] 0x301 2) 0x300 1 = [(0x300, 1#8), (0x301, 2#8)] := by decide

end Sys2Proof.Tests
end

section
/-! SUPPORT. The fields of the state after reset that the source gives a start value (10_state.md R41 and
R43 to R46), and the obligation on them. -/

namespace Sys2Proof.Machine

@[simp] theorem State.reset_pc : State.reset.pc = 0x200#16 := rfl
@[simp] theorem State.reset_stack : State.reset.stack = [] := rfl
@[simp] theorem State.reset_dt : State.reset.dt = 0#8 := rfl
@[simp] theorem State.reset_st : State.reset.st = 0#8 := rfl
/-- The display starts as CLS leaves it, so `Display.pixel_clear` speaks of its pixels. -/
@[simp] theorem State.reset_disp : State.reset.disp = Display.clear := rfl

/-- Settles O6, field by field; the reset display is the cleared one, whose pixels are all off. -/
theorem resetGivesTheStartValuesOfTheSource : Obligations.ResetGivesTheStartValuesOfTheSource := by
  refine ⟨State.reset_pc, State.reset_stack, State.reset_dt, State.reset_st, fun x y => ?_⟩
  rw [State.reset_disp, Display.pixel_clear]

end Sys2Proof.Machine
end

section
/-! SUPPORT. What a step that ended halted reports (60_exceptions.md R283, R284), and the obligation on a
fetch outside memory (20_memory.md R63). -/

namespace Sys2Proof.Machine

/-- The report of a halted state is its halt, with the same reason. -/
theorem State.stepResult_of_halted {t : State} {r : Fault} (h : t.mode = .halted r) :
    t.stepResult = .halted r := by
  rw [State.stepResult, h]

/-- Settles O12: the fetch check fails, so the step answers its start state halted with the reason, and the
report follows from the mode. -/
theorem fetchOutsideMemoryHalts : Obligations.FetchOutsideMemoryHalts := by
  intro s hready hpc
  have hmode : (s.halt .fetchOutOfBounds).mode = .halted .fetchOutOfBounds := State.halt_mode s _
  exact ⟨s.halt .fetchOutOfBounds, step_fetch_none s hready hpc, hmode, State.stepResult_of_halted hmode⟩

end Sys2Proof.Machine
end

section
/-! SUPPORT. The diagnostic of a step that fetches (30_encoding.md R111), the step of a word of no row, and
the obligation on it (R104). -/

namespace Sys2Proof.Machine

/-- The fetched word alone decides what a Ready step emits. -/
theorem State.diagnostic_fetched (s : State) (h : s.mode = .ready) (hf : s.pc.toNat + 1 ≤ 0xFFF) :
    s.diagnostic = diagnosticOf hw (wordOfBytes (s.mem.read s.pc.toNat) (s.mem.read (s.pc.toNat + 1))) := by
  simp only [State.diagnostic, h, State.fetch_eq s hf, Option.bind_some]

/-- A word that `decode` rejects is reported, with the word it is rejected by. -/
theorem diagnosticOf_unrecognized {w op : Word} (h : decode w = .unrecognized op) :
    diagnosticOf hw w = some (.unrecognizedOpcode op) := by
  have hw_decode : decodeWith hw.strictDecode w = .unrecognized op := h
  rw [diagnosticOf, hw_decode]

/-- A word of no row leaves the state after the fetch as it is, and a Ready state then ends its step. -/
theorem endStepOf_execDecoded_unrecognized (op : Word) {s : State} (h : s.mode = .ready) :
    endStepOf (execDecoded (.unrecognized op) s) = .next s.tick.nextInput := by
  rw [← State.endStep_ready s h]
  rfl

/-- What port `observe` shows of a step whose instruction did nothing: PC + 2 and the timers counted down. -/
theorem State.observe_advance_tick_nextInput (s : State) :
    s.advance.tick.nextInput.observe =
      { s.observe with pc := s.pc + 2#16, dt := decrement s.dt, st := decrement s.st } := rfl

/-- Settles O11: the fetched word decides the diagnostic, and its step is the fetch's PC + 2 followed by the
timer phase and nothing between them. -/
theorem unrecognizedWordIsANoOp : Obligations.UnrecognizedWordIsANoOp := by
  intro s op hready hpc hdecode
  constructor
  · rw [State.diagnostic_fetched s hready hpc]
    exact diagnosticOf_unrecognized hdecode
  · have hadvanced : s.advance.mode = .ready := by rw [State.advance_mode, hready]
    have hstep : step s = .next s.advance.tick.nextInput := by
      rw [step_fetched s hready hpc, hdecode, endStepOf_execDecoded_unrecognized op hadvanced]
    exact ⟨s.advance.tick.nextInput, hstep, State.observe_advance_tick_nextInput s⟩

end Sys2Proof.Machine
end

section
/-! SUPPORT. What the instructions that only clear the display or set PC answer (40_system_and_flow.md
R121 to R131), and the obligations on them. -/

namespace Sys2Proof.Machine

/-! Each meaning as one update of State. -/

theorem exec_cls (s : State) : exec .cls s = .next (s.setDisp Display.clear) := rfl
theorem exec_jp (nnn : Addr12) (s : State) : exec (.jp nnn) s = .next (s.setPc (zextAddr nnn)) := rfl
theorem exec_jpV0 (nnn : Addr12) (s : State) : exec (.jpV0 nnn) s = .next (s.setPc (jumpV0Target s nnn)) := rfl
theorem exec_seImm (x : Nibble) (kk : Byte) (s : State) :
    exec (.seImm x kk) s = .next (s.skipIf (s.getV x == kk)) := rfl
theorem exec_sneImm (x : Nibble) (kk : Byte) (s : State) :
    exec (.sneImm x kk) s = .next (s.skipIf (s.getV x != kk)) := rfl
theorem exec_seReg (x y : Nibble) (s : State) :
    exec (.seReg x y) s = .next (s.skipIf (s.getV x == s.getV y)) := rfl
theorem exec_sneReg (x y : Nibble) (s : State) :
    exec (.sneReg x y) s = .next (s.skipIf (s.getV x != s.getV y)) := rfl

/-- Zero-extending an address immediate keeps its value (30_encoding.md R94). -/
@[simp] theorem zextAddr_toNat (nnn : Addr12) : (zextAddr nnn).toNat = nnn.toNat :=
  BitVec.toNat_setWidth_of_le (by decide)

/-- The wrapped sum is below 4096, so the 16 bits of PC hold it whole. -/
@[simp] theorem jumpV0Target_toNat (s : State) (nnn : Addr12) :
    (jumpV0Target s nnn).toNat = (nnn.toNat + (s.getV 0x0#4).toNat) % 4096 := by
  simp only [jumpV0Target, memSize, BitVec.toNat_ofNat]
  omega

/-- A conditional skip under a test `c` that is true in case `P` and false in case `Q`. -/
theorem skipIf_exactly {P Q : Prop} {c : Bool} (s : State) (skip : P → c = true) (stay : Q → c = false) :
    KeepsAllBut [.pc] noReg s (s.skipIf c) ∧
      (P → (s.skipIf c).pc = s.pc + 2#16) ∧ (Q → (s.skipIf c).pc = s.pc) := by
  refine ⟨keepsAllBut_skipIf s c, fun hP => ?_, fun hQ => ?_⟩
  · rw [skip hP]; rfl
  · rw [stay hQ]; rfl

/-- Settles O24: the display becomes the cleared one, whose pixels are all off. -/
theorem clsTurnsEveryPixelOff : Obligations.ClsTurnsEveryPixelOff :=
  fun s => ⟨s.setDisp Display.clear, exec_cls s, Display.pixel_clear, keepsAllBut_setDisp s _⟩

/-- Settles O27: the new PC is the address immediate, zero-extended. -/
theorem jpSetsThePc : Obligations.JpSetsThePc :=
  fun nnn s => ⟨s.setPc (zextAddr nnn), exec_jp nnn s, zextAddr_toNat nnn, keepsAllBut_setPc s _⟩

/-- Settles O30: each instruction is a conditional skip, and its Boolean test decides its condition. -/
theorem skipsAddTwoExactlyOnTheirCondition : Obligations.SkipsAddTwoExactlyOnTheirCondition :=
  fun x y kk s =>
    ⟨⟨_, exec_seImm x kk s, skipIf_exactly s beq_iff_eq.2 beq_eq_false_iff_ne.2⟩,
      ⟨_, exec_sneImm x kk s, skipIf_exactly s bne_iff_ne.2 bne_eq_false_iff_eq.2⟩,
      ⟨_, exec_seReg x y s, skipIf_exactly s beq_iff_eq.2 beq_eq_false_iff_ne.2⟩,
      ⟨_, exec_sneReg x y s, skipIf_exactly s bne_iff_ne.2 bne_eq_false_iff_eq.2⟩⟩

/-- Settles O31: the new PC is the sum taken mod 4096. -/
theorem jpV0WrapsIntoMemory : Obligations.JpV0WrapsIntoMemory :=
  fun nnn s => ⟨s.setPc (jumpV0Target s nnn), exec_jpV0 nnn s, jumpV0Target_toNat s nnn, keepsAllBut_setPc s _⟩

end Sys2Proof.Machine
end

section
/-! SUPPORT. What the instructions that copy a value into one register answer (41_alu.md R163 and R165), and
the obligation on them. -/

namespace Sys2Proof.Machine

theorem exec_ldImm (x : Nibble) (kk : Byte) (s : State) : exec (.ldImm x kk) s = .next (s.setV x kk) := rfl
theorem exec_mov (x y : Nibble) (s : State) : exec (.mov x y) s = .next (s.setV x (s.getV y)) := rfl

/-- A register reads back what was written to it; VF is no exception. -/
theorem State.getV_setV_same (s : State) (x : Nibble) (b : Byte) : (s.setV x b).getV x = b := by
  rw [State.getV_setV, if_pos rfl]

/-- Settles O32: each instruction is one register write, of KK or of the old V[Y]. -/
theorem loadImmediateAndMoveSetOneRegister : Obligations.LoadImmediateAndMoveSetOneRegister :=
  fun x y kk s =>
    ⟨⟨s.setV x kk, exec_ldImm x kk s, State.getV_setV_same s x kk, keepsAllBut_setV s x kk⟩,
      ⟨s.setV x (s.getV y), exec_mov x y s, State.getV_setV_same s x (s.getV y), keepsAllBut_setV s x (s.getV y)⟩⟩

end Sys2Proof.Machine
end

section
/-! The obligation on the instruction that sets the address register (42_address_and_display.md R201). -/

namespace Sys2Proof.Machine

theorem exec_ldI (nnn : Addr12) (s : State) : exec (.ldI nnn) s = .next (s.setI (zextAddr nnn)) := rfl

/-- Settles O38: the new I is the address immediate, zero-extended. -/
theorem ldISetsTheAddressRegister : Obligations.LdISetsTheAddressRegister :=
  fun nnn s => ⟨s.setI (zextAddr nnn), exec_ldI nnn s, zextAddr_toNat nnn, keepsAllBut_setI s _⟩

end Sys2Proof.Machine
end

section
/-! SUPPORT. What the three timer instructions answer (43_keys_timers_memory.md R234 to R237), the step of an
instruction that completes, and the obligations on the timers. -/

namespace Sys2Proof.Machine

theorem exec_ldVxDt (x : Nibble) (s : State) : exec (.ldVxDt x) s = .next (s.setV x s.dt) := rfl
theorem exec_ldDtVx (x : Nibble) (s : State) : exec (.ldDtVx x) s = .next (s.setDt (s.getV x)) := rfl
theorem exec_ldStVx (x : Nibble) (s : State) : exec (.ldStVx x) s = .next (s.setSt (s.getV x)) := rfl

/-- Settles O46: each instruction is one write, of DT into V[X] or of V[X] into a timer. -/
theorem timerInstructionsMoveTheValue : Obligations.TimerInstructionsMoveTheValue :=
  fun x s =>
    ⟨⟨s.setV x s.dt, exec_ldVxDt x s, State.getV_setV_same s x s.dt, keepsAllBut_setV s x s.dt⟩,
      ⟨s.setDt (s.getV x), exec_ldDtVx x s, State.setDt_dt s (s.getV x), keepsAllBut_setDt s (s.getV x)⟩,
      ⟨s.setSt (s.getV x), exec_ldStVx x s, State.setSt_st s (s.getV x), keepsAllBut_setSt s (s.getV x)⟩⟩

/-- The step of an instruction that leaves the mode Ready is its `exec` after the fetch's PC + 2, and the
timer phase comes last (70_reset_and_hazards.md R324). -/
theorem step_completed {s u : State} {i : Instr} (hready : s.mode = .ready) (hpc : s.pc.toNat + 1 ≤ 0xFFF)
    (hdecode : decodeBytes (s.mem.read s.pc.toNat) (s.mem.read (s.pc.toNat + 1)) = .instr i)
    (hexec : exec i s.advance = .next u) (hu : u.mode = .ready) : step s = .next u.tick.nextInput := by
  rw [step_fetched s hready hpc, hdecode, execDecoded, hexec, endStepOf, State.endStep_ready u hu]

/-- Settles O16: a timer written by the instruction meets the timer phase of its own step, while the value
FX07 copied out of DT is in a register, which that phase leaves alone. -/
theorem timerWritesCountDownInTheSameStep : Obligations.TimerWritesCountDownInTheSameStep := by
  intro s x hready hpc
  refine ⟨fun hdecode => ?_, fun hdecode => ?_, fun hdecode => ?_⟩
  · exact ⟨_, step_completed hready hpc hdecode (exec_ldDtVx x s.advance) hready, decrement_toNat (s.getV x)⟩
  · exact ⟨_, step_completed hready hpc hdecode (exec_ldStVx x s.advance) hready, decrement_toNat (s.getV x)⟩
  · exact ⟨_, step_completed hready hpc hdecode (exec_ldVxDt x s.advance) hready,
      State.getV_setV_same s.advance x s.dt⟩

end Sys2Proof.Machine
end

section
/-! SUPPORT. The model's own fields `inputs` and `stepNo` steer a step through the inputs they give it, and in
no other way: exchanging them commutes with every instruction that is given the same inputs. The
obligation on determinism (60_exceptions.md R306) follows, because states with equal aggregates differ in
these two fields only. -/

namespace Sys2Proof.Machine

/-- `s` with other values in the model's own fields (log 1). -/
def State.withFeed (s : State) (inputs : List StepInput) (stepNo : Nat) : State :=
  { s with inputs := inputs, stepNo := stepNo }

/-- The same exchange in the state an instruction answers. -/
def feedResult (inputs : List StepInput) (stepNo : Nat) : Result → Result
  | .next t => .next (t.withFeed inputs stepNo)
  | .fault r => .fault r
  | .refused r => .refused r

/-- What R306 lets a step depend on beside the aggregate: the coming step has the same `key_down`,
`FirstKeyDown` answer and `rand_byte` in both states. -/
structure State.SameStepInputs (s s' : State) : Prop where
  keyDown : s.input.keyDown = s'.input.keyDown
  firstKey : firstKeyDown s.input = firstKeyDown s'.input
  randByte : s.input.randByte = s'.input.randByte

/-- States with equal aggregates differ at most in the model's own fields. -/
theorem State.exists_withFeed_of_observe_eq {s s' : State} (h : s.observe = s'.observe) :
    ∃ inputs stepNo, s' = s.withFeed inputs stepNo := by
  obtain ⟨mem, v, pc, i, stack, dt, st, disp, mode, inputs, stepNo⟩ := s'
  cases h
  exact ⟨inputs, stepNo, rfl⟩

/-- The mode is part of the aggregate, and `step_result` is read off the mode. -/
theorem State.stepResult_eq_of_observe_eq {t t' : State} (h : t.observe = t'.observe) :
    t.stepResult = t'.stepResult := by
  have hmode : t.mode = t'.mode := congrArg Observation.mode h
  rw [State.stepResult, State.stepResult, hmode]

/-- A checked instruction commutes with the exchange when both its branches do. -/
theorem ite_feedResult {c : Prop} [Decidable c] {inputs : List StepInput} {stepNo : Nat} {a b a' b' : Result}
    (ha : a' = feedResult inputs stepNo a) (hb : b' = feedResult inputs stepNo b) :
    (if c then a' else b') = feedResult inputs stepNo (if c then a else b) := by
  rw [ha, hb, apply_ite (feedResult inputs stepNo)]

section
variable {s : State} {inputs : List StepInput} {stepNo : Nat}

theorem State.withFeed_skipIf (c : Bool) :
    (s.withFeed inputs stepNo).skipIf c = (s.skipIf c).withFeed inputs stepNo := by
  cases c <;> rfl

theorem State.withFeed_loadBlock (count : Nat) :
    (s.withFeed inputs stepNo).loadBlock count = (s.loadBlock count).withFeed inputs stepNo := by
  induction count with
  | zero => rfl
  | succ k ih => exact congrArg (fun t => t.setV (BitVec.ofNat 4 k) (s.mem.read (s.i.toNat + k))) ih

theorem execRet_withFeed : execRet (s.withFeed inputs stepNo) = feedResult inputs stepNo (execRet s) := by
  obtain ⟨mem, v, pc, i, stack, dt, st, disp, mode, _, _⟩ := s
  cases stack <;> rfl

/-- A key skip asks for one key of `key_down`. -/
theorem keySkip_withFeed (x : Nibble) (wanted : Bool)
    (h : s.input.keyDown = (s.withFeed inputs stepNo).input.keyDown) :
    keySkip x wanted (s.withFeed inputs stepNo) = feedResult inputs stepNo (keySkip x wanted s) := by
  have hkey : ∀ k, keyIsDown (s.withFeed inputs stepNo).input k = keyIsDown s.input k := fun k => by
    rw [keyIsDown, keyIsDown, h]
  simp only [keySkip, hkey, State.withFeed_skipIf]
  exact ite_feedResult rfl rfl

/-- LD Vx, K sees the keyboard through `FirstKeyDown` only. -/
theorem execLdVxK_withFeed (x : Nibble)
    (h : firstKeyDown s.input = firstKeyDown (s.withFeed inputs stepNo).input) :
    execLdVxK x (s.withFeed inputs stepNo) = feedResult inputs stepNo (execLdVxK x s) := by
  rw [execLdVxK, execLdVxK, ← h]
  cases firstKeyDown s.input <;> rfl

/-- RND sees no input but the random byte. -/
theorem execRnd_withFeed (x : Nibble) (kk : Byte)
    (h : s.input.randByte = (s.withFeed inputs stepNo).input.randByte) :
    execRnd x kk (s.withFeed inputs stepNo) = feedResult inputs stepNo (execRnd x kk s) := by
  rw [execRnd, execRnd, ← h]
  rfl

/-- An instruction given the same inputs does the same, whatever the model's own fields hold. The
arms below `loadRegs` neither branch nor see an input: they set other fields to values of other fields. -/
theorem exec_withFeed (i : Instr) (h : s.SameStepInputs (s.withFeed inputs stepNo)) :
    exec i (s.withFeed inputs stepNo) = feedResult inputs stepNo (exec i s) := by
  cases i with
  | rnd x kk => exact execRnd_withFeed x kk h.randByte
  | skp x => exact keySkip_withFeed x true h.keyDown
  | sknp x => exact keySkip_withFeed x false h.keyDown
  | ldVxK x => exact execLdVxK_withFeed x h.firstKey
  | seImm x kk => exact congrArg Host.Outcome.next (State.withFeed_skipIf _)
  | sneImm x kk => exact congrArg Host.Outcome.next (State.withFeed_skipIf _)
  | seReg x y => exact congrArg Host.Outcome.next (State.withFeed_skipIf _)
  | sneReg x y => exact congrArg Host.Outcome.next (State.withFeed_skipIf _)
  | ret => exact execRet_withFeed
  | call nnn => simp only [exec, execCall, callWith_hw]; rfl
  | drw x y n => exact ite_feedResult rfl rfl
  | ldB x => exact ite_feedResult rfl rfl
  | storeRegs x => exact ite_feedResult rfl rfl
  | loadRegs x => exact ite_feedResult (congrArg Host.Outcome.next (State.withFeed_loadBlock _)) rfl
  | _ => rfl

/-- A word of no row does nothing, so it sees no input either. -/
theorem execDecoded_withFeed (d : Decoded) (h : s.SameStepInputs (s.withFeed inputs stepNo)) :
    execDecoded d (s.withFeed inputs stepNo) = feedResult inputs stepNo (execDecoded d s) := by
  cases d with
  | instr i => exact exec_withFeed i h
  | unrecognized op => rfl

/-- The end of the step moves on to the next inputs without looking at them. -/
theorem State.observe_endStep_withFeed (u : State) :
    (u.withFeed inputs stepNo).endStep.observe = u.endStep.observe := by
  cases hmode : u.mode with
  | ready =>
    rw [State.endStep_ready u hmode, State.endStep_ready (u.withFeed inputs stepNo) hmode]
    rfl
  | halted r =>
    rw [State.endStep_halted u r hmode, State.endStep_halted (u.withFeed inputs stepNo) r hmode]
    rfl

/-- A step given the same inputs ends in the same aggregate, whatever the model's own fields hold. -/
theorem step_withFeed {t : State} (h : s.SameStepInputs (s.withFeed inputs stepNo)) (hstep : step s = .next t) :
    ∃ t', step (s.withFeed inputs stepNo) = .next t' ∧ t'.observe = t.observe := by
  obtain ⟨r, hmode, rfl⟩ | ⟨hmode, hpc, rfl⟩ | ⟨hmode, hpc, u, hexec, rfl⟩ := step_cases s t hstep
  · exact ⟨_, step_halted (t.withFeed inputs stepNo) r hmode, rfl⟩
  · exact ⟨_, step_fetch_none (s.withFeed inputs stepNo) hmode hpc, rfl⟩
  · have hadvanced : s.advance.SameStepInputs (s.advance.withFeed inputs stepNo) :=
      ⟨h.keyDown, h.firstKey, h.randByte⟩
    have hexec' := (execDecoded_withFeed _ hadvanced).trans (congrArg (feedResult inputs stepNo) hexec)
    refine ⟨(u.withFeed inputs stepNo).endStep, ?_, State.observe_endStep_withFeed u⟩
    rw [step_fetched (s.withFeed inputs stepNo) hmode hpc]
    exact congrArg endStepOf hexec'

end

/-- Settles O19: the second state is the first with other values in the model's own fields, which a step given
the same inputs does not see; the report follows from the aggregate. -/
theorem stepDependsOnStateAndInputsAlone : Obligations.StepDependsOnStateAndInputsAlone := by
  intro s s' t t' hview hkeyDown hfirstKey hrandByte hstep hstep'
  obtain ⟨inputs, stepNo, rfl⟩ := State.exists_withFeed_of_observe_eq hview
  obtain ⟨u, hu, hobserve⟩ := step_withFeed ⟨hkeyDown, hfirstKey, hrandByte⟩ hstep
  obtain rfl : u = t' := Host.Outcome.next.inj (hu.symm.trans hstep')
  exact ⟨hobserve.symm, State.stepResult_eq_of_observe_eq hobserve.symm⟩

end Sys2Proof.Machine
end

section
/-! SUPPORT. What a word decodes to, family by family (30_encoding.md R97 to R106), and the obligations on the
decoder and the encoder. -/

namespace Sys2Proof

/-! A word is its format's word when the fixed fields hold the row's values (30_encoding.md R93). -/

theorem wordAddr_of_fieldOp {op : Word} {o : Nibble} (h : fieldOp op = o) : wordAddr o (fieldNNN op) = op :=
  h ▸ wordAddr_fields op

theorem wordRegImm_of_fieldOp {op : Word} {o : Nibble} (h : fieldOp op = o) :
    wordRegImm o (fieldX op) (fieldKK op) = op :=
  h ▸ wordRegImm_fields op

theorem wordRegImm_of_fields {op : Word} {o : Nibble} {kk : Byte} (h : fieldOp op = o) (hkk : fieldKK op = kk) :
    wordRegImm o (fieldX op) kk = op :=
  hkk ▸ wordRegImm_of_fieldOp h

theorem wordRegReg_of_fieldOp {op : Word} {o : Nibble} (h : fieldOp op = o) :
    wordRegReg o (fieldX op) (fieldY op) (fieldN op) = op :=
  h ▸ wordRegReg_fields op

theorem wordRegReg_of_fields {op : Word} {o n : Nibble} (h : fieldOp op = o) (hn : fieldN op = n) :
    wordRegReg o (fieldX op) (fieldY op) n = op :=
  hn ▸ wordRegReg_of_fieldOp h

/-- The family of the decoder's last branch. -/
theorem nibble_eq_F (o : Nibble) : o ≠ 0x0#4 → o ≠ 0x1#4 → o ≠ 0x2#4 → o ≠ 0x3#4 → o ≠ 0x4#4 → o ≠ 0x5#4 →
    o ≠ 0x6#4 → o ≠ 0x7#4 → o ≠ 0x8#4 → o ≠ 0x9#4 → o ≠ 0xA#4 → o ≠ 0xB#4 → o ≠ 0xC#4 → o ≠ 0xD#4 →
    o ≠ 0xE#4 → o = 0xF#4 := by
  bv_omega

/-- The strict 0x0 family compares the whole word (30_encoding.md R106). -/
theorem isZeroFamilyWord_iff (w op : Word) : isZeroFamilyWord true w op = true ↔ op = w := beq_iff_eq

/-! ## Decode after encode -/

/-- A 0x0-family word is told from another by its address field. -/
theorem isZeroFamilyWord_wordAddr (w : Word) (nnn : Addr12) (h : nnn ≠ fieldNNN w) :
    isZeroFamilyWord true w (wordAddr 0x0#4 nnn) = false := by
  rw [Bool.eq_false_iff, ne_eq, isZeroFamilyWord_iff]
  exact fun e => h (by rw [← e, fieldNNN_wordAddr])

theorem decode_encode_sys (nnn : Addr12) (hcls : nnn ≠ 0x0E0#12) (hret : nnn ≠ 0x0EE#12) :
    decode (encode (.sys nnn)) = .instr (.sys nnn) := by
  have notCls : isZeroFamilyWord true 0x00E0#16 (wordAddr 0x0#4 nnn) = false := isZeroFamilyWord_wordAddr _ _ hcls
  have notRet : isZeroFamilyWord true 0x00EE#16 (wordAddr 0x0#4 nnn) = false := isZeroFamilyWord_wordAddr _ _ hret
  simp [decode_eq, encode, decodeWith, decode0, notCls, notRet]

/-- Settles O1, row by row: the fields of a format's word are the operands put there, and only SYS shares its
family with words of other rows. -/
theorem encodeThenDecodeGivesTheInstructionBack : Obligations.EncodeThenDecodeGivesTheInstructionBack := by
  intro i hwf
  cases i with
  | cls | ret => rfl
  | sys nnn =>
    obtain ⟨hcls, hret⟩ : nnn ≠ 0x0E0#12 ∧ nnn ≠ 0x0EE#12 := by simpa [WellFormed] using hwf
    exact decode_encode_sys nnn hcls hret
  | jp | call | ldI | jpV0 => simp [decode_eq, encode, decodeWith]
  | seImm | sneImm | ldImm | addImm | rnd => simp [decode_eq, encode, decodeWith]
  | drw => simp [decode_eq, encode, decodeWith]
  | seReg | sneReg => simp [decode_eq, encode, decodeWith, decodeN0]
  | mov | or | and | xor | add | sub | shr | subn | shl => simp [decode_eq, encode, decodeWith, decode8]
  | skp | sknp => simp [decode_eq, encode, decodeWith, decodeE]
  | ldVxDt | ldVxK | ldDtVx | ldStVx | addI | ldF | ldB | storeRegs | loadRegs =>
    simp [decode_eq, encode, decodeWith, decodeF]

/-! ## Encode after decode -/

theorem encodeDecoded_decode0 {op : Word} (h : fieldOp op = 0x0#4) : encodeDecoded (decode0 true op) = op := by
  unfold decode0
  split
  · next hcls => exact ((isZeroFamilyWord_iff _ _).1 hcls).symm
  · split
    · next hret => exact ((isZeroFamilyWord_iff _ _).1 hret).symm
    · exact wordAddr_of_fieldOp h

/-- The 0x5 and 0x9 families: `i` is any instruction whose word has N = 0. -/
theorem encodeDecoded_decodeN0 {op : Word} {i : Instr} (h : fieldN op = 0x0#4 → encode i = op) :
    encodeDecoded (decodeN0 true i op) = op := by
  unfold decodeN0
  split
  · rfl
  · next hn => exact h (by simpa using hn)

theorem encodeDecoded_decode8 {op : Word} (h : fieldOp op = 0x8#4) : encodeDecoded (decode8 op) = op := by
  unfold decode8
  dsimp only
  split
  case h_10 => rfl
  all_goals next hn => exact wordRegReg_of_fields h hn

theorem encodeDecoded_decodeE {op : Word} (h : fieldOp op = 0xE#4) : encodeDecoded (decodeE op) = op := by
  unfold decodeE
  split
  case h_3 => rfl
  all_goals next hkk => exact wordRegImm_of_fields h hkk

theorem encodeDecoded_decodeF {op : Word} (h : fieldOp op = 0xF#4) : encodeDecoded (decodeF op) = op := by
  unfold decodeF
  dsimp only
  split
  case h_10 => rfl
  all_goals next hkk => exact wordRegImm_of_fields h hkk

/-- Settles O2: the word is put together again from its fields, family by family. -/
theorem decodeThenEncodeGivesTheWordBack : Obligations.DecodeThenEncodeGivesTheWordBack := by
  intro op
  rw [decode_eq]
  unfold decodeWith
  dsimp only
  split <;> rename_i h
  case h_1 => exact encodeDecoded_decode0 h
  case h_6 | h_10 => exact encodeDecoded_decodeN0 (wordRegReg_of_fields h)
  case h_9 => exact encodeDecoded_decode8 h
  case h_14 => exact wordRegReg_of_fieldOp h
  case h_15 => exact encodeDecoded_decodeE h
  case h_16 => exact encodeDecoded_decodeF (nibble_eq_F _ ‹_› ‹_› ‹_› ‹_› ‹_› ‹_› ‹_› ‹_› ‹_› ‹_› ‹_› ‹_› ‹_› ‹_› ‹_›)
  case h_2 | h_3 | h_11 | h_12 => exact wordAddr_of_fieldOp h
  all_goals exact wordRegImm_of_fieldOp h

/-! ## The opcode map -/

/-- Every encoding matches its row. -/
theorem encode_matches_row (i : Instr) : Laws.OpcodeMap.Statement i := by
  open Laws.OpcodeMap in
  cases i with
  | cls => exact cls
  | ret => exact ret
  | sys nnn => exact sys nnn
  | jp nnn => exact jp nnn
  | call nnn => exact call nnn
  | seImm x kk => exact seImm x kk
  | sneImm x kk => exact sneImm x kk
  | seReg x y => exact seReg x y
  | ldImm x kk => exact ldImm x kk
  | addImm x kk => exact addImm x kk
  | mov x y => exact mov x y
  | or x y => exact or x y
  | and x y => exact and x y
  | xor x y => exact xor x y
  | add x y => exact add x y
  | sub x y => exact sub x y
  | shr x y => exact shr x y
  | subn x y => exact subn x y
  | shl x y => exact shl x y
  | sneReg x y => exact sneReg x y
  | ldI nnn => exact ldI nnn
  | jpV0 nnn => exact jpV0 nnn
  | rnd x kk => exact rnd x kk
  | drw x y n => exact drw x y n
  | skp x => exact skp x
  | sknp x => exact sknp x
  | ldVxDt x => exact ldVxDt x
  | ldVxK x => exact ldVxK x
  | ldDtVx x => exact ldDtVx x
  | ldStVx x => exact ldStVx x
  | addI x => exact addI x
  | ldF x => exact ldF x
  | ldB x => exact ldB x
  | storeRegs x => exact storeRegs x
  | loadRegs x => exact loadRegs x

/-- A decoded instruction encodes to the word it was decoded from. -/
theorem encode_of_decode {op : Word} {i : Instr} (h : decode op = .instr i) : encode i = op := by
  have hword : encodeDecoded (decode op) = op := decodeThenEncodeGivesTheWordBack op
  rwa [h] at hword

/-- SYS never stands for CLS or RET: its word would be theirs, which decodes to them. -/
theorem wellFormed_of_decode {op : Word} {i : Instr} (h : decode op = .instr i) : WellFormed i = true := by
  obtain rfl := encode_of_decode h
  cases i with
  | sys nnn =>
    have hcls : nnn ≠ 0x0E0#12 := by rintro rfl; exact absurd h (by decide)
    have hret : nnn ≠ 0x0EE#12 := by rintro rfl; exact absurd h (by decide)
    simp [WellFormed, hcls, hret]
  | _ => rfl

/-- Settles O3: the word is the encoding of what it decodes to, and every encoding matches its row. -/
theorem decodedWordMatchesItsRow : Obligations.DecodedWordMatchesItsRow := by
  intro op i h
  refine ⟨wellFormed_of_decode h, ?_⟩
  have hrow : encode i &&& (opcodeRow i).mask = (opcodeRow i).value := encode_matches_row i
  rwa [encode_of_decode h] at hrow

/-! ## The words of no row -/

/-- The sub-opcodes of the 0x8 family's last branch. -/
theorem nibble_mem_unused8 (n : Nibble) : n ≠ 0x0#4 → n ≠ 0x1#4 → n ≠ 0x2#4 → n ≠ 0x3#4 → n ≠ 0x4#4 →
    n ≠ 0x5#4 → n ≠ 0x6#4 → n ≠ 0x7#4 → n ≠ 0xE#4 →
    n ∈ [0x8#4, 0x9#4, 0xA#4, 0xB#4, 0xC#4, 0xD#4, 0xF#4] := by
  simp only [List.mem_cons, List.not_mem_nil, or_false]
  bv_omega

theorem unrecognized_eq_iff (op op' : Word) : Decoded.unrecognized op = .unrecognized op' ↔ op' = op :=
  Decoded.unrecognized.injEq op op' ▸ eq_comm

/-- No word of the 0x0 family is unrecognized: SYS takes the rest. -/
theorem decode0_ne_unrecognized (op op' : Word) : decode0 true op ≠ .unrecognized op' := by
  unfold decode0
  split
  · nofun
  · split <;> nofun

theorem decodeN0_eq_unrecognized_iff (i : Instr) (op op' : Word) :
    decodeN0 true i op = .unrecognized op' ↔ op' = op ∧ fieldN op ≠ 0x0#4 := by
  unfold decodeN0
  split
  · next hn =>
    have hn : fieldN op ≠ 0x0#4 := by simpa using hn
    rw [and_iff_left hn, unrecognized_eq_iff]
  · next hn =>
    have hn : fieldN op = 0x0#4 := by simpa using hn
    exact ⟨nofun, fun h => absurd hn h.2⟩

theorem decode8_eq_unrecognized_iff (op op' : Word) :
    decode8 op = .unrecognized op' ↔
      op' = op ∧ fieldN op ∈ [0x8#4, 0x9#4, 0xA#4, 0xB#4, 0xC#4, 0xD#4, 0xF#4] := by
  unfold decode8
  dsimp only
  split <;> rename_i hn
  case h_10 =>
    have hmem := nibble_mem_unused8 _ ‹_› ‹_› ‹_› ‹_› ‹_› ‹_› ‹_› ‹_› ‹_›
    rw [and_iff_left hmem, unrecognized_eq_iff]
  all_goals simp [hn]

theorem decodeE_eq_unrecognized_iff (op op' : Word) :
    decodeE op = .unrecognized op' ↔ op' = op ∧ fieldKK op ∉ [0x9E#8, 0xA1#8] := by
  unfold decodeE
  split <;> rename_i hkk
  case h_3 =>
    have hnot : fieldKK op ∉ [0x9E#8, 0xA1#8] := by
      simp only [List.mem_cons, List.not_mem_nil, or_false, not_or]
      and_intros <;> assumption
    rw [and_iff_left hnot, unrecognized_eq_iff]
  all_goals simp [hkk]

theorem decodeF_eq_unrecognized_iff (op op' : Word) :
    decodeF op = .unrecognized op' ↔
      op' = op ∧
        fieldKK op ∉ [0x07#8, 0x0A#8, 0x15#8, 0x18#8, 0x1E#8, 0x29#8, 0x33#8, 0x55#8, 0x65#8] := by
  unfold decodeF
  dsimp only
  split <;> rename_i hkk
  case h_10 =>
    have hnot : fieldKK op ∉ [0x07#8, 0x0A#8, 0x15#8, 0x18#8, 0x1E#8, 0x29#8, 0x33#8, 0x55#8, 0x65#8] := by
      simp only [List.mem_cons, List.not_mem_nil, or_false, not_or]
      and_intros <;> assumption
    rw [and_iff_left hnot, unrecognized_eq_iff]
  all_goals simp [hkk]

/-- Settles O4: each family rejects its own words, and the families without a fixed field reject none. -/
theorem unrecognizedWordsAreThoseListed : Obligations.UnrecognizedWordsAreThoseListed := by
  intro op op'
  rw [decode_eq]
  unfold decodeWith
  dsimp only
  split <;> rename_i h
  case h_1 => simp [h, decode0_ne_unrecognized]
  case h_6 | h_10 => simp [h, decodeN0_eq_unrecognized_iff]
  case h_9 => simp [h, decode8_eq_unrecognized_iff]
  case h_15 => simp [h, decodeE_eq_unrecognized_iff]
  case h_16 =>
    have hF := nibble_eq_F _ ‹_› ‹_› ‹_› ‹_› ‹_› ‹_› ‹_› ‹_› ‹_› ‹_› ‹_› ‹_› ‹_› ‹_› ‹_›
    simp [hF, decodeF_eq_unrecognized_iff]
  all_goals simp [h]

/-- Settles O5: the decoder runs on the nine words. -/
theorem workedDecodeExamples : Obligations.WorkedDecodeExamples := by
  unfold Obligations.WorkedDecodeExamples
  decide

end Sys2Proof
end

section
/-! SUPPORT. What each remaining instruction answers, as one update of State or as a halt, and from that, said
once for all 35: the fault is the one listed (60_exceptions.md R281), and without one the instruction
changes only what the table lists (10_state.md R34). -/

namespace Sys2Proof.Machine

/-- A raised fault leaves the state that the statements call `haltedFrom`. -/
theorem raise_eq_haltedFrom (r : Fault) (s : State) : raise r s = .next (haltedFrom s r) := rfl

/-! ## The instructions without a check -/

theorem exec_sys (nnn : Addr12) (s : State) : exec (.sys nnn) s = .next s := rfl
theorem exec_call (nnn : Addr12) (s : State) : exec (.call nnn) s = .next ((s.push s.pc).setPc (zextAddr nnn)) :=
  callWith_hw nnn s
theorem exec_addImm (x : Nibble) (kk : Byte) (s : State) :
    exec (.addImm x kk) s = .next (s.setV x (s.getV x + kk)) := rfl
theorem exec_or (x y : Nibble) (s : State) : exec (.or x y) s = .next (s.setV x (s.getV x ||| s.getV y)) := rfl
theorem exec_and (x y : Nibble) (s : State) : exec (.and x y) s = .next (s.setV x (s.getV x &&& s.getV y)) := rfl
theorem exec_xor (x y : Nibble) (s : State) : exec (.xor x y) s = .next (s.setV x (s.getV x ^^^ s.getV y)) := rfl
theorem exec_add (x y : Nibble) (s : State) :
    exec (.add x y) s = .next (s.setResultFlag hw x (s.getV x + s.getV y) (carryOut (s.getV x) (s.getV y))) := rfl
theorem exec_sub (x y : Nibble) (s : State) :
    exec (.sub x y) s = .next (s.setResultFlag hw x (s.getV x - s.getV y) (noBorrow (s.getV x) (s.getV y))) := rfl
theorem exec_subn (x y : Nibble) (s : State) :
    exec (.subn x y) s = .next (s.setResultFlag hw x (s.getV y - s.getV x) (noBorrow (s.getV y) (s.getV x))) := rfl
theorem exec_shr (x y : Nibble) (s : State) :
    exec (.shr x y) s = .next (s.setResultFlag hw x (s.getV x >>> 1) (lowBit (s.getV x))) := rfl
theorem exec_shl (x y : Nibble) (s : State) :
    exec (.shl x y) s = .next (s.setResultFlag hw x (s.getV x <<< 1) (highBit (s.getV x))) := rfl
theorem exec_rnd (x : Nibble) (kk : Byte) (s : State) :
    exec (.rnd x kk) s = .next (s.setV x (s.input.randByte &&& kk)) := rfl
theorem exec_addI (x : Nibble) (s : State) : exec (.addI x) s = .next (s.setI (s.i + zextByte (s.getV x))) := rfl
theorem exec_ldF (x : Nibble) (s : State) : exec (.ldF x) s = .next (s.setI (glyphAddr hw (s.getV x))) := rfl

/-- LD Vx, K with a key down (43_keys_timers_memory.md R235). -/
theorem exec_ldVxK_some (x : Nibble) {s : State} {k : Nibble} (h : firstKeyDown s.input = some k) :
    exec (.ldVxK x) s = .next (s.setV x (k.setWidth 8)) := by
  rw [exec, execLdVxK, h]

/-- LD Vx, K with every key up. -/
theorem exec_ldVxK_none (x : Nibble) {s : State} (h : firstKeyDown s.input = none) :
    exec (.ldVxK x) s = .next s.rewind := by
  rw [exec, execLdVxK, h]

/-! ## The instructions with a check: the answer when it holds, and the halt when it fails -/

theorem exec_ret_cons {s : State} {a : Word} {rest : List Word} (h : s.stack = a :: rest) :
    exec .ret s = .next { s with pc := a, stack := rest } := by
  rw [exec, execRet, h]

theorem exec_ret_nil {s : State} (h : s.stack = []) : exec .ret s = .next (haltedFrom s .stackUnderflow) := by
  rw [exec, execRet, h]
  rfl

theorem exec_skp_ok (x : Nibble) (s : State) (h : (s.getV x).toNat ≤ 15) :
    exec (.skp x) s = .next (s.skipIf (keyIsDown s.input ((s.getV x).setWidth 4) == true)) :=
  keySkip_ok x true s h

theorem exec_skp_out (x : Nibble) (s : State) (h : (s.getV x).toNat > 15) :
    exec (.skp x) s = .next (haltedFrom s .keyIndexOutOfRange) :=
  keySkip_out x true s h

theorem exec_sknp_ok (x : Nibble) (s : State) (h : (s.getV x).toNat ≤ 15) :
    exec (.sknp x) s = .next (s.skipIf (keyIsDown s.input ((s.getV x).setWidth 4) == false)) :=
  keySkip_ok x false s h

theorem exec_sknp_out (x : Nibble) (s : State) (h : (s.getV x).toNat > 15) :
    exec (.sknp x) s = .next (haltedFrom s .keyIndexOutOfRange) :=
  keySkip_out x false s h

/-- The drawing DXYN makes in `s`. -/
def State.drawing (s : State) (x y n : Nibble) : Canvas :=
  Canvas.drawSprite s.mem s.i (s.getV x) (s.getV y) n.toNat ⟨s.disp, false⟩

/-- The state DXYN leaves: the drawing shown, its collision in VF. -/
def State.drawn (s : State) (x y n : Nibble) : State :=
  (s.setDisp (s.drawing x y n).disp).setV flagReg (flagByte (s.drawing x y n).collision)

/-- The bounds check of DXYN, in numbers. -/
theorem spanOk_height_iff (base : Word) (n : Nibble) :
    spanOk base n.toNat = true ↔ n = 0x0#4 ∨ base.toNat + (n.toNat - 1) ≤ 0xFFF := by
  rw [spanOk_iff, ← BitVec.toNat_inj]
  rfl

theorem exec_drw_ok (x y n : Nibble) (s : State) (h : n = 0x0#4 ∨ s.i.toNat + (n.toNat - 1) ≤ 0xFFF) :
    exec (.drw x y n) s = .next (s.drawn x y n) := by
  rw [exec, execDrw, drawHeight_hw, drawRows_ok x y n.toNat s ((spanOk_height_iff s.i n).2 h)]
  rfl

theorem exec_drw_out (x y n : Nibble) (s : State) (hn : n ≠ 0x0#4) (h : s.i.toNat + (n.toNat - 1) > 0xFFF) :
    exec (.drw x y n) s = .next (haltedFrom s .memoryOutOfBounds) := by
  have hspan : spanOk s.i n.toNat = false := by
    rw [Bool.eq_false_iff, ne_eq, spanOk_height_iff]
    exact not_or.2 ⟨hn, by omega⟩
  rw [exec, execDrw, drawHeight_hw, drawRows_out x y n.toNat s hspan, raise_eq_haltedFrom]

/-- The bytes FX33 stores. -/
def digits (b : Byte) : List Byte := [hundreds b, tens b, ones b]

/-- The state FX33 leaves. -/
def State.withDigits (s : State) (x : Nibble) : State := s.setMem (s.mem.writeBytes s.i.toNat (digits (s.getV x)))

/-- The bounds check of a block that is not empty, by its last address. -/
theorem spanOk_succ_iff (base : Word) (k : Nat) : spanOk base (k + 1) = true ↔ base.toNat + k ≤ 0xFFF := by
  rw [spanOk_iff, Nat.add_sub_cancel, or_iff_right (Nat.succ_ne_zero k)]

/-- A checked instruction whose block lies in memory. -/
theorem checked_ok {base : Word} {k : Nat} (done halt : Result) (h : base.toNat + k ≤ 0xFFF) :
    (if spanOk base (k + 1) then done else halt) = done :=
  if_pos ((spanOk_succ_iff base k).2 h)

/-- A checked instruction whose block leaves memory. -/
theorem checked_out {base : Word} {k : Nat} (done halt : Result) (h : base.toNat + k > 0xFFF) :
    (if spanOk base (k + 1) then done else halt) = halt :=
  if_neg fun hspan => absurd ((spanOk_succ_iff base k).1 hspan) (by omega)

theorem exec_ldB_ok (x : Nibble) (s : State) (h : s.i.toNat + 2 ≤ 0xFFF) :
    exec (.ldB x) s = .next (s.withDigits x) := checked_ok _ _ h

theorem exec_ldB_out (x : Nibble) (s : State) (h : s.i.toNat + 2 > 0xFFF) :
    exec (.ldB x) s = .next (haltedFrom s .memoryOutOfBounds) := checked_out _ _ h

theorem exec_storeRegs_ok (x : Nibble) (s : State) (h : s.i.toNat + x.toNat ≤ 0xFFF) :
    exec (.storeRegs x) s = .next (s.storeBlock (x.toNat + 1)) := checked_ok _ _ h

theorem exec_storeRegs_out (x : Nibble) (s : State) (h : s.i.toNat + x.toNat > 0xFFF) :
    exec (.storeRegs x) s = .next (haltedFrom s .memoryOutOfBounds) := checked_out _ _ h

theorem exec_loadRegs_ok (x : Nibble) (s : State) (h : s.i.toNat + x.toNat ≤ 0xFFF) :
    exec (.loadRegs x) s = .next (s.loadBlock (x.toNat + 1)) := checked_ok _ _ h

theorem exec_loadRegs_out (x : Nibble) (s : State) (h : s.i.toNat + x.toNat > 0xFFF) :
    exec (.loadRegs x) s = .next (haltedFrom s .memoryOutOfBounds) := checked_out _ _ h

/-- Settles O42, one halt after another. -/
theorem accessOutsideMemoryHaltsWithoutEffect : Obligations.AccessOutsideMemoryHaltsWithoutEffect :=
  fun x y n s => ⟨exec_drw_out x y n s, exec_ldB_out x s, exec_storeRegs_out x s, exec_loadRegs_out x s⟩

/-! ## The two answers of each checked instruction, from its answer -/

theorem exec_ret_inv {s t : State} (h : exec .ret s = .next t) :
    (∃ a rest, s.stack = a :: rest ∧ t = { s with pc := a, stack := rest }) ∨ t = haltedFrom s .stackUnderflow := by
  cases hs : s.stack with
  | nil => exact .inr (Host.Outcome.next.inj (h.symm.trans (exec_ret_nil hs)))
  | cons a rest => exact .inl ⟨a, rest, rfl, Host.Outcome.next.inj (h.symm.trans (exec_ret_cons hs))⟩

theorem keySkip_inv {x : Nibble} {wanted : Bool} {s t : State} (h : keySkip x wanted s = .next t) :
    (∃ c, t = s.skipIf c) ∨ t = haltedFrom s .keyIndexOutOfRange := by
  by_cases hx : (s.getV x).toNat ≤ 15
  · exact .inl ⟨_, Host.Outcome.next.inj (h.symm.trans (keySkip_ok x wanted s hx))⟩
  · exact .inr (Host.Outcome.next.inj (h.symm.trans (keySkip_out x wanted s (not_le.1 hx))))

theorem exec_ldVxK_inv {x : Nibble} {s t : State} (h : exec (.ldVxK x) s = .next t) :
    (∃ b, t = s.setV x b) ∨ t = s.rewind := by
  cases hk : firstKeyDown s.input with
  | none => exact .inr (Host.Outcome.next.inj (h.symm.trans (exec_ldVxK_none x hk)))
  | some k => exact .inl ⟨_, Host.Outcome.next.inj (h.symm.trans (exec_ldVxK_some x hk))⟩

theorem exec_drw_inv {x y n : Nibble} {s t : State} (h : exec (.drw x y n) s = .next t) :
    t = s.drawn x y n ∨ t = haltedFrom s .memoryOutOfBounds := by
  by_cases hi : n = 0x0#4 ∨ s.i.toNat + (n.toNat - 1) ≤ 0xFFF
  · exact .inl (Host.Outcome.next.inj (h.symm.trans (exec_drw_ok x y n s hi)))
  · obtain ⟨hn, hi⟩ := not_or.1 hi
    exact .inr (Host.Outcome.next.inj (h.symm.trans (exec_drw_out x y n s hn (not_le.1 hi))))

/-- A checked instruction either does its work or halts. -/
theorem checked_inv {c : Prop} [Decidable c] {s t u : State} {r : Fault}
    (h : (if c then .next u else raise r s : Result) = .next t) : t = u ∨ t = haltedFrom s r := by
  split at h
  · exact .inl (Host.Outcome.next.inj h).symm
  · exact .inr (Host.Outcome.next.inj h).symm

theorem exec_ldB_inv {x : Nibble} {s t : State} (h : exec (.ldB x) s = .next t) :
    t = s.withDigits x ∨ t = haltedFrom s .memoryOutOfBounds := checked_inv h

theorem exec_storeRegs_inv {x : Nibble} {s t : State} (h : exec (.storeRegs x) s = .next t) :
    t = s.storeBlock (x.toNat + 1) ∨ t = haltedFrom s .memoryOutOfBounds := checked_inv h

theorem exec_loadRegs_inv {x : Nibble} {s t : State} (h : exec (.loadRegs x) s = .next t) :
    t = s.loadBlock (x.toNat + 1) ∨ t = haltedFrom s .memoryOutOfBounds := checked_inv h

/-! ## The frames of the answers that are no single update -/

theorem keepsAllBut_return (s : State) (a : Word) (rest : List Word) :
    KeepsAllBut [.pc, .stack] noReg s { s with pc := a, stack := rest } := by
  apply keepsAllBut_intro <;> simp [State.getV]

theorem keepsAllBut_call (s : State) (ret target : Word) :
    KeepsAllBut [.pc, .stack] noReg s ((s.push ret).setPc target) := by
  apply keepsAllBut_intro <;> simp

theorem keepsAllBut_drawn (s : State) (x y n : Nibble) : KeepsAllBut [.disp] (onlyReg flagReg) s (s.drawn x y n) :=
  KeepsAllBut.trans ((keepsAllBut_setDisp s _).mono (fun _ h => h) nofun)
    ((keepsAllBut_setV _ flagReg _).mono nofun fun _ h => h)

/-- FX65 changes V0 to V[X] and nothing else. -/
theorem keepsAllBut_loadBlock (s : State) (x : Nibble) :
    KeepsAllBut [] (fun y => decide (y.toNat ≤ x.toNat)) s (s.loadBlock (x.toNat + 1)) := by
  apply keepsAllBut_intro <;> simp
  intro y hy
  rw [State.loadBlock_getV s _ x.isLt, if_neg (by omega)]

/-! ## All 35 instructions at once -/

/-- What `i` answers in `s`: the halt that the list of fatal causes gives, or, when it gives none, a state that
differs in what the table lists for `i` alone. -/
def AnswersAsListed (i : Instr) (s : State) : Prop :=
  (∃ r, faultOf i s = some r ∧ exec i s = .next (haltedFrom s r)) ∨
  (faultOf i s = none ∧ ∃ t, exec i s = .next t ∧ KeepsAllBut (writtenPieces i) (writtenRegs i) s t)

theorem ret_answersAsListed (s : State) : AnswersAsListed .ret s := by
  cases h : s.stack with
  | nil => exact .inl ⟨_, if_pos h, exec_ret_nil h⟩
  | cons a rest => exact .inr ⟨if_neg (by simp [h]), _, exec_ret_cons h, keepsAllBut_return s a rest⟩

theorem drw_answersAsListed (x y n : Nibble) (s : State) : AnswersAsListed (.drw x y n) s := by
  by_cases h : n ≠ 0x0#4 ∧ s.i.toNat + (n.toNat - 1) > 0xFFF
  · exact .inl ⟨_, if_pos h, exec_drw_out x y n s h.1 h.2⟩
  · have hspan : n = 0x0#4 ∨ s.i.toNat + (n.toNat - 1) ≤ 0xFFF := by
      rwa [not_and_or, not_not, not_lt] at h
    exact .inr ⟨if_neg h, _, exec_drw_ok x y n s hspan, keepsAllBut_drawn s x y n⟩

theorem ldVxK_answersAsListed (x : Nibble) (s : State) : AnswersAsListed (.ldVxK x) s := by
  cases h : firstKeyDown s.input with
  | none => exact .inr ⟨rfl, _, exec_ldVxK_none x h, (keepsAllBut_setPc s _).mono (fun _ h => h) nofun⟩
  | some k => exact .inr ⟨rfl, _, exec_ldVxK_some x h, (keepsAllBut_setV s x _).mono nofun fun _ h => h⟩

/-- An instruction with one check: it halts when the check `c` finds a fault, and completes otherwise. -/
theorem answersAsListed_of_check {i : Instr} {s t : State} {c : Prop} [Decidable c] {r : Fault}
    (hfault : faultOf i s = if c then some r else none) (out : c → exec i s = .next (haltedFrom s r))
    (ok : ¬ c → exec i s = .next t) (frame : KeepsAllBut (writtenPieces i) (writtenRegs i) s t) :
    AnswersAsListed i s := by
  by_cases h : c
  · exact .inl ⟨r, hfault.trans (if_pos h), out h⟩
  · exact .inr ⟨hfault.trans (if_neg h), t, ok h, frame⟩

/-- Every instruction answers as the list of fatal causes and the table of reads and writes say. -/
theorem exec_answersAsListed (i : Instr) (s : State) : AnswersAsListed i s := by
  cases i with
  | cls => exact .inr ⟨rfl, _, exec_cls s, keepsAllBut_setDisp s _⟩
  | ret => exact ret_answersAsListed s
  | sys nnn => exact .inr ⟨rfl, _, exec_sys nnn s, keepsAllBut_refl _ _ s⟩
  | jp nnn => exact .inr ⟨rfl, _, exec_jp nnn s, keepsAllBut_setPc s _⟩
  | call nnn => exact .inr ⟨rfl, _, exec_call nnn s, keepsAllBut_call s _ _⟩
  | seImm x kk => exact .inr ⟨rfl, _, exec_seImm x kk s, keepsAllBut_skipIf s _⟩
  | sneImm x kk => exact .inr ⟨rfl, _, exec_sneImm x kk s, keepsAllBut_skipIf s _⟩
  | seReg x y => exact .inr ⟨rfl, _, exec_seReg x y s, keepsAllBut_skipIf s _⟩
  | ldImm x kk => exact .inr ⟨rfl, _, exec_ldImm x kk s, keepsAllBut_setV s x _⟩
  | addImm x kk => exact .inr ⟨rfl, _, exec_addImm x kk s, keepsAllBut_setV s x _⟩
  | mov x y => exact .inr ⟨rfl, _, exec_mov x y s, keepsAllBut_setV s x _⟩
  | or x y => exact .inr ⟨rfl, _, exec_or x y s, keepsAllBut_setV s x _⟩
  | and x y => exact .inr ⟨rfl, _, exec_and x y s, keepsAllBut_setV s x _⟩
  | xor x y => exact .inr ⟨rfl, _, exec_xor x y s, keepsAllBut_setV s x _⟩
  | add x y => exact .inr ⟨rfl, _, exec_add x y s, keepsAllBut_setResultFlag s x _ _⟩
  | sub x y => exact .inr ⟨rfl, _, exec_sub x y s, keepsAllBut_setResultFlag s x _ _⟩
  | shr x y => exact .inr ⟨rfl, _, exec_shr x y s, keepsAllBut_setResultFlag s x _ _⟩
  | subn x y => exact .inr ⟨rfl, _, exec_subn x y s, keepsAllBut_setResultFlag s x _ _⟩
  | shl x y => exact .inr ⟨rfl, _, exec_shl x y s, keepsAllBut_setResultFlag s x _ _⟩
  | sneReg x y => exact .inr ⟨rfl, _, exec_sneReg x y s, keepsAllBut_skipIf s _⟩
  | ldI nnn => exact .inr ⟨rfl, _, exec_ldI nnn s, keepsAllBut_setI s _⟩
  | jpV0 nnn => exact .inr ⟨rfl, _, exec_jpV0 nnn s, keepsAllBut_setPc s _⟩
  | rnd x kk => exact .inr ⟨rfl, _, exec_rnd x kk s, keepsAllBut_setV s x _⟩
  | drw x y n => exact drw_answersAsListed x y n s
  | skp x =>
    exact answersAsListed_of_check rfl (exec_skp_out x s) (fun h => exec_skp_ok x s (not_lt.1 h))
      (keepsAllBut_skipIf s _)
  | sknp x =>
    exact answersAsListed_of_check rfl (exec_sknp_out x s) (fun h => exec_sknp_ok x s (not_lt.1 h))
      (keepsAllBut_skipIf s _)
  | ldVxDt x => exact .inr ⟨rfl, _, exec_ldVxDt x s, keepsAllBut_setV s x _⟩
  | ldVxK x => exact ldVxK_answersAsListed x s
  | ldDtVx x => exact .inr ⟨rfl, _, exec_ldDtVx x s, keepsAllBut_setDt s _⟩
  | ldStVx x => exact .inr ⟨rfl, _, exec_ldStVx x s, keepsAllBut_setSt s _⟩
  | addI x => exact .inr ⟨rfl, _, exec_addI x s, keepsAllBut_setI s _⟩
  | ldF x => exact .inr ⟨rfl, _, exec_ldF x s, keepsAllBut_setI s _⟩
  | ldB x =>
    exact answersAsListed_of_check rfl (exec_ldB_out x s) (fun h => exec_ldB_ok x s (not_lt.1 h))
      (keepsAllBut_setMem s _)
  | storeRegs x =>
    exact answersAsListed_of_check rfl (exec_storeRegs_out x s) (fun h => exec_storeRegs_ok x s (not_lt.1 h))
      (keepsAllBut_setMem s _)
  | loadRegs x =>
    exact answersAsListed_of_check rfl (exec_loadRegs_out x s) (fun h => exec_loadRegs_ok x s (not_lt.1 h))
      (keepsAllBut_loadBlock s x)

/-- No instruction writes the mode but by a fault. -/
theorem mode_not_written (i : Instr) : Piece.mode ∉ writtenPieces i := by
  cases i <;> simp [writtenPieces]

/-- An instruction that does not fault leaves the mode as it is. -/
theorem KeepsAllBut.mode_eq {i : Instr} {regs : Nibble → Bool} {s t : State}
    (h : KeepsAllBut (writtenPieces i) regs s t) : t.mode = s.mode :=
  h.1 .mode (mode_not_written i)

/-- Both ways an instruction can answer, from its answer. -/
theorem exec_inv {i : Instr} {s t : State} (h : exec i s = .next t) :
    (∃ r, t = haltedFrom s r) ∨ KeepsAllBut (writtenPieces i) (writtenRegs i) s t := by
  obtain ⟨r, -, hexec⟩ | ⟨-, u, hexec, hframe⟩ := exec_answersAsListed i s
  · exact .inl ⟨r, Host.Outcome.next.inj (h.symm.trans hexec)⟩
  · obtain rfl : t = u := Host.Outcome.next.inj (h.symm.trans hexec)
    exact .inr hframe

/-- Settles O21: the reason is the one listed, and without one the mode is kept. -/
theorem instructionsFaultExactlyAsListed : Obligations.InstructionsFaultExactlyAsListed := by
  intro i s hready
  obtain ⟨r, hfault, hexec⟩ | ⟨hfault, t, hexec, hframe⟩ := exec_answersAsListed i s
  · refine ⟨fun r' hr' => ?_, fun hnone => ?_⟩
    · obtain rfl : r = r' := Option.some.inj (hfault.symm.trans hr')
      exact hexec
    · cases hfault.symm.trans hnone
  · refine ⟨fun r' hr' => ?_, fun _ => ⟨t, hexec, hframe.mode_eq.trans hready⟩⟩
    cases hfault.symm.trans hr'

/-- Settles O22: a Ready result is no halt, so the table's frame holds. -/
theorem instructionsWriteOnlyWhatTheTableLists : Obligations.InstructionsWriteOnlyWhatTheTableLists := by
  intro i s t _ hexec hready
  obtain ⟨r, rfl⟩ | hframe := exec_inv hexec
  · cases hready
  · exact hframe

end Sys2Proof.Machine
end

section
/-! SUPPORT. What every step does: that it answers, what a fault leaves, what the timers do, the causes of a
change, and the invariant (10_state.md R40, 60_exceptions.md R283, 70_reset_and_hazards.md R324). -/

namespace Sys2Proof.Machine

/-- What the two bytes at PC decode to. -/
def State.decodedAtPc (s : State) : Decoded := decodeBytes (s.mem.read s.pc.toNat) (s.mem.read (s.pc.toNat + 1))

/-! ## Every step answers -/

theorem exec_next (i : Instr) (s : State) : ∃ t, exec i s = .next t := by
  obtain ⟨r, -, hexec⟩ | ⟨-, t, hexec, -⟩ := exec_answersAsListed i s
  · exact ⟨_, hexec⟩
  · exact ⟨t, hexec⟩

theorem execDecoded_next (d : Decoded) (s : State) : ∃ t, execDecoded d s = .next t := by
  cases d with
  | instr i => exact exec_next i s
  | unrecognized op => exact ⟨s, rfl⟩

theorem step_next (s : State) : ∃ t, step s = .next t := by
  cases hmode : s.mode with
  | halted r => exact ⟨s, step_halted s r hmode⟩
  | ready =>
    by_cases hpc : s.pc.toNat + 1 ≤ 0xFFF
    · obtain ⟨u, hu⟩ := execDecoded_next s.decodedAtPc s.advance
      exact ⟨u.endStep, (step_fetched s hmode hpc).trans (congrArg endStepOf hu)⟩
    · exact ⟨_, step_fetch_none s hmode (not_le.1 hpc)⟩

/-- Settles O17. -/
theorem everyStepAnswersANextState : Obligations.EveryStepAnswersANextState := ⟨step_next, exec_next⟩

/-- Settles O14. -/
theorem haltedStepChangesNothing : Obligations.HaltedStepChangesNothing :=
  fun s r h => ⟨step_halted s r h, State.stepResult_of_halted h⟩

/-- The step of an instruction that faults ends with the fault (60_exceptions.md R283). -/
theorem step_faulted {s u : State} {i : Instr} {r : Fault} (hready : s.mode = .ready) (hpc : s.pc.toNat + 1 ≤ 0xFFF)
    (hdecode : decodeBytes (s.mem.read s.pc.toNat) (s.mem.read (s.pc.toNat + 1)) = .instr i)
    (hexec : exec i s.advance = .next u) (hu : u.mode = .halted r) : step s = .next u := by
  rw [step_fetched s hready hpc, hdecode, execDecoded, hexec, endStepOf, State.endStep_halted u r hu]

/-- Settles O10: the end of the step tells a completed instruction from a faulted one. -/
theorem stepRunsTheDecodedInstruction : Obligations.StepRunsTheDecodedInstruction := by
  intro s i hready hpc hdecode _
  obtain ⟨t, hexec⟩ := exec_next i s.advance
  exact ⟨t, hexec, fun ht => step_completed hready hpc hdecode hexec ht,
    fun _ ht => step_faulted hready hpc hdecode hexec ht⟩

/-! ## Every way a step ends -/

/-- The halted state of an instruction after the fetch is the state before the fetch, halted. -/
theorem haltedFrom_advance (s : State) (r : Fault) : haltedFrom s.advance r = s.halt r :=
  congrArg (fun t => State.halt t r) (State.rewind_advance s)

/-- `s` completed the step to `t` by running `i`: from the state after the fetch to `u`, which differs from it in
what the table lists for `i`, and then through the end of the step. -/
structure State.Completed (s : State) (i : Instr) (u t : State) : Prop where
  fetched : s.pc.toNat + 1 ≤ 0xFFF
  decoded : s.decodedAtPc = .instr i
  executed : exec i s.advance = .next u
  frame : KeepsAllBut (writtenPieces i) (writtenRegs i) s.advance u
  ended : t = u.tick.nextInput

/-- The four ways a step ends: nothing done (Halted), its start state halted, a word of no row, an instruction
completed. -/
theorem step_inv {s t : State} (h : step s = .next t) :
    (∃ r, s.mode = .halted r ∧ t = s) ∨ (∃ r, s.mode = .ready ∧ t = s.halt r) ∨
    (s.mode = .ready ∧ s.pc.toNat + 1 ≤ 0xFFF ∧ t = s.advance.tick.nextInput) ∨
    (s.mode = .ready ∧ ∃ i u, s.Completed i u t) := by
  obtain hhalted | ⟨hready, -, rfl⟩ | ⟨hready, hpc, u, hexec, rfl⟩ := step_cases s t h
  · exact .inl hhalted
  · exact .inr (.inl ⟨_, hready, rfl⟩)
  · cases hd : s.decodedAtPc with
    | unrecognized op =>
      rw [show decodeBytes _ _ = _ from hd] at hexec
      obtain rfl : s.advance = u := Host.Outcome.next.inj hexec
      exact .inr (.inr (.inl ⟨hready, hpc, State.endStep_ready _ hready⟩))
    | instr i =>
      rw [show decodeBytes _ _ = _ from hd] at hexec
      obtain ⟨r, rfl⟩ | hframe := exec_inv (i := i) hexec
      · refine .inr (.inl ⟨r, hready, ?_⟩)
        rw [State.endStep_halted _ r rfl, haltedFrom_advance]
      · have hu : u.mode = .ready := hframe.mode_eq.trans hready
        exact .inr (.inr (.inr ⟨hready, i, u, hpc, hd, hexec, hframe, State.endStep_ready u hu⟩))

theorem State.Completed.mode_eq {s t u : State} {i : Instr} (h : s.Completed i u t) : t.mode = s.mode := by
  rw [h.ended, State.nextInput_mode, State.tick_mode, h.frame.mode_eq, State.advance_mode]

/-- Settles O13: the two ways a step completes keep the mode Ready, and the other two are no completed step. -/
theorem faultingStepKeepsItsStartState : Obligations.FaultingStepKeepsItsStartState := by
  intro s t r hready hstep hhalted
  obtain ⟨r', hr', -⟩ | ⟨r', -, rfl⟩ | ⟨-, -, rfl⟩ | ⟨-, i, u, hdone⟩ := step_inv hstep
  · cases hready.symm.trans hr'
  · obtain rfl : r' = r := Mode.halted.inj hhalted
    rfl
  · cases hready.symm.trans hhalted
  · cases (hready.symm.trans hdone.mode_eq.symm).trans hhalted

/-! ## The instructions that write a component (10_state.md R34) -/

theorem writes_mem_iff (i : Instr) : Piece.mem ∈ writtenPieces i ↔ (∃ x, i = .ldB x) ∨ ∃ x, i = .storeRegs x := by
  cases i <;> simp [writtenPieces]

theorem writes_disp_iff (i : Instr) : Piece.disp ∈ writtenPieces i ↔ i = .cls ∨ ∃ x y n, i = .drw x y n := by
  cases i <;> simp [writtenPieces]

theorem writes_stack_iff (i : Instr) : Piece.stack ∈ writtenPieces i ↔ i = .ret ∨ ∃ nnn, i = .call nnn := by
  cases i <;> simp [writtenPieces]

theorem writes_i_iff (i : Instr) :
    Piece.i ∈ writtenPieces i ↔ (∃ nnn, i = .ldI nnn) ∨ (∃ x, i = .addI x) ∨ ∃ x, i = .ldF x := by
  cases i <;> simp [writtenPieces]

theorem writes_dt_iff (i : Instr) : Piece.dt ∈ writtenPieces i ↔ ∃ x, i = .ldDtVx x := by
  cases i <;> simp [writtenPieces]

theorem writes_st_iff (i : Instr) : Piece.st ∈ writtenPieces i ↔ ∃ x, i = .ldStVx x := by
  cases i <;> simp [writtenPieces]

/-- Settles O15: a timer that the instruction does not write meets the timer phase with its old value. -/
theorem completedStepCountsTheTimersDown : Obligations.CompletedStepCountsTheTimersDown := by
  intro s t hready hstep hready'
  obtain ⟨r, hr, -⟩ | ⟨r, -, rfl⟩ | ⟨-, -, rfl⟩ | ⟨-, i, u, hdone⟩ := step_inv hstep
  · cases hready.symm.trans hr
  · cases hready'
  · exact ⟨fun _ => decrement_toNat s.dt, fun _ => decrement_toNat s.st⟩
  · obtain rfl := hdone.ended
    refine ⟨fun hno => ?_, fun hno => ?_⟩
    · have hdt : u.dt = s.dt := hdone.frame.1 .dt fun hw =>
        let ⟨x, hx⟩ := (writes_dt_iff i).1 hw
        hno x (hx ▸ hdone.decoded)
      exact (decrement_toNat u.dt).trans (by rw [hdt])
    · have hst : u.st = s.st := hdone.frame.1 .st fun hw =>
        let ⟨x, hx⟩ := (writes_st_iff i).1 hw
        hno x (hx ▸ hdone.decoded)
      exact (decrement_toNat u.st).trans (by rw [hst])

/-! ## The causes of a change -/

theorem Piece.same_refl (p : Piece) (s : State) : p.Same s s := by
  cases p
  case mem => exact fun _ => rfl
  case disp => exact fun _ _ => rfl
  all_goals rfl

/-- The components that only an instruction changes: the fetch and the end of the step do not. -/
theorem Piece.same_of_completed {p : Piece} (hp : p ∈ [Piece.mem, .disp, .stack, .i]) {s u : State}
    (h : p.Same s.advance u) : p.Same s u.tick.nextInput := by
  cases p
  case mem | disp | stack | i => exact h
  all_goals simp at hp

theorem Piece.same_halt {p : Piece} (hp : p ≠ .mode) (s : State) (r : Fault) : p.Same s (s.halt r) := by
  have hrefl := p.same_refl s
  cases p
  case mode => exact absurd rfl hp
  all_goals exact hrefl

/-- One of these components changes only in a completed step of an instruction that writes it. -/
theorem step_changes {s t : State} (h : step s = .next t) {p : Piece} (hp : p ∈ [Piece.mem, .disp, .stack, .i])
    (hchange : ¬ p.Same s t) : ∃ i u, s.Completed i u t ∧ p ∈ writtenPieces i := by
  obtain ⟨r, -, rfl⟩ | ⟨r, -, rfl⟩ | ⟨-, -, rfl⟩ | ⟨-, i, u, hdone⟩ := step_inv h
  · exact absurd (p.same_refl t) hchange
  · exact absurd (Piece.same_halt (by rintro rfl; simp at hp) s r) hchange
  · exact absurd (Piece.same_of_completed hp (p.same_refl s.advance)) hchange
  · obtain rfl := hdone.ended
    exact ⟨i, u, hdone, not_not.1 fun hw => hchange (Piece.same_of_completed hp (hdone.frame.1 p hw))⟩

/-- FX33 changes no byte but the three it stores. -/
theorem exec_ldB_read_other {x : Nibble} {s t : State} {a : Nat} (h : exec (.ldB x) s = .next t)
    (ha : a < s.i.toNat ∨ s.i.toNat + 3 ≤ a) : t.mem.read a = s.mem.read a := by
  obtain rfl | rfl := exec_ldB_inv h
  · exact Memory.read_writeBytes_other _ _ _ _ ha
  · rfl

/-- FX55 changes no byte outside its block. -/
theorem exec_storeRegs_read_other {x : Nibble} {s t : State} {a : Nat} (h : exec (.storeRegs x) s = .next t)
    (ha : a < s.i.toNat ∨ s.i.toNat + (x.toNat + 1) ≤ a) : t.mem.read a = s.mem.read a := by
  obtain rfl | rfl := exec_storeRegs_inv h
  · exact read_writesFrom_other _ _ _ _ _ ha
  · rfl

/-- A changed byte is one that FX33 or FX55 stores to. -/
theorem step_mem_changes {s t : State} (h : step s = .next t) {a : Nat} (ha : t.mem.read a ≠ s.mem.read a) :
    (∃ x, s.decodedAtPc = .instr (.ldB x) ∧ s.i.toNat ≤ a ∧ a < s.i.toNat + 3) ∨
    (∃ x, s.decodedAtPc = .instr (.storeRegs x) ∧ s.i.toNat ≤ a ∧ a ≤ s.i.toNat + x.toNat) := by
  obtain ⟨i, u, hdone, hw⟩ := step_changes h (p := .mem) (by decide) fun hsame => ha (hsame a)
  obtain rfl := hdone.ended
  obtain ⟨x, rfl⟩ | ⟨x, rfl⟩ := (writes_mem_iff i).1 hw
  · have hin : ¬ (a < s.i.toNat ∨ s.i.toNat + 3 ≤ a) := 
      fun hout => ha (exec_ldB_read_other (s := s.advance) (t := u) hdone.executed hout)
    exact .inl ⟨x, hdone.decoded, by omega, by omega⟩
  · have hin : ¬ (a < s.i.toNat ∨ s.i.toNat + (x.toNat + 1) ≤ a) :=
      fun hout => ha (exec_storeRegs_read_other (s := s.advance) (t := u) hdone.executed hout)
    exact .inr ⟨x, hdone.decoded, by omega, by omega⟩

/-- Settles O23: each of the four components changes only by an instruction that writes it. -/
theorem stepChangesHaveTheirInstruction : Obligations.StepChangesHaveTheirInstruction := by
  intro s t h
  refine ⟨fun a ha => step_mem_changes h ha, fun x y hxy => ?_, fun hstack => ?_, fun hi => ?_⟩
  · obtain ⟨i, u, hdone, hw⟩ := step_changes h (p := .disp) (by decide) fun hsame => hxy (hsame x y)
    obtain rfl | ⟨vx, vy, n, rfl⟩ := (writes_disp_iff i).1 hw
    · exact .inl hdone.decoded
    · exact .inr ⟨vx, vy, n, hdone.decoded⟩
  · obtain ⟨i, u, hdone, hw⟩ := step_changes h (p := .stack) (by decide) hstack
    obtain rfl | ⟨nnn, rfl⟩ := (writes_stack_iff i).1 hw
    · exact .inl hdone.decoded
    · exact .inr ⟨nnn, hdone.decoded⟩
  · obtain ⟨i, u, hdone, hw⟩ := step_changes h (p := .i) (by decide) hi
    obtain ⟨nnn, rfl⟩ | ⟨x, rfl⟩ | ⟨x, rfl⟩ := (writes_i_iff i).1 hw
    · exact .inl ⟨nnn, hdone.decoded⟩
    · exact .inr (.inl ⟨x, hdone.decoded⟩)
    · exact .inr (.inr ⟨x, hdone.decoded⟩)

/-! ## The invariant (10_state.md R40) -/

/-- Where an instruction can leave PC: where the fetch left it, one instruction further or back, in memory, or at a
return address. -/
def PcReachable (s : State) (a : Word) : Prop :=
  a = s.pc ∨ a = s.pc + 2#16 ∨ a = s.pc - 2#16 ∨ a.toNat ≤ 0xFFF ∨ a ∈ s.stack

theorem pcReachable_skipIf (s : State) (c : Bool) : PcReachable s (s.skipIf c).pc := by
  cases c
  · exact .inl rfl
  · exact .inr (.inl rfl)

theorem pcReachable_keySkip {x : Nibble} {wanted : Bool} {s t : State} (h : keySkip x wanted s = .next t) :
    PcReachable s t.pc := by
  obtain ⟨c, rfl⟩ | rfl := keySkip_inv h
  · exact pcReachable_skipIf s c
  · exact .inr (.inr (.inl rfl))

theorem pcReachable_zextAddr (s : State) (nnn : Addr12) : PcReachable s (zextAddr nnn) := by
  have hlt : (zextAddr nnn).toNat < 2 ^ 12 := zextAddr_toNat nnn ▸ nnn.isLt
  exact .inr (.inr (.inr (.inl (Nat.le_of_lt_succ hlt))))

theorem pcReachable_jumpV0Target (s : State) (nnn : Addr12) : PcReachable s (jumpV0Target s nnn) := by
  have hlt : (jumpV0Target s nnn).toNat < 4096 := jumpV0Target_toNat s nnn ▸ Nat.mod_lt _ (by decide)
  exact .inr (.inr (.inr (.inl (Nat.le_of_lt_succ hlt))))

/-- The instructions that write PC, and no other, move it. -/
theorem exec_pcReachable {i : Instr} {s t : State} (h : exec i s = .next t) : PcReachable s t.pc := by
  obtain ⟨r, rfl⟩ | hframe := exec_inv h
  · exact .inr (.inr (.inl rfl))
  by_cases hw : Piece.pc ∈ writtenPieces i
  · cases i with
    | ret =>
      obtain ⟨a, rest, hs, rfl⟩ | rfl := exec_ret_inv h
      · exact .inr (.inr (.inr (.inr (hs ▸ List.mem_cons_self))))
      · exact .inr (.inr (.inl rfl))
    | jp nnn => obtain rfl := Host.Outcome.next.inj h; exact pcReachable_zextAddr s nnn
    | call nnn =>
      obtain rfl := Host.Outcome.next.inj ((exec_call nnn s).symm.trans h)
      exact pcReachable_zextAddr s nnn
    | jpV0 nnn => obtain rfl := Host.Outcome.next.inj h; exact pcReachable_jumpV0Target s nnn
    | seImm | sneImm | seReg | sneReg => obtain rfl := Host.Outcome.next.inj h; exact pcReachable_skipIf s _
    | skp x => exact pcReachable_keySkip h
    | sknp x => exact pcReachable_keySkip h
    | ldVxK x =>
      obtain ⟨b, rfl⟩ | rfl := exec_ldVxK_inv h
      · exact .inl rfl
      · exact .inr (.inr (.inl rfl))
    | _ => simp [writtenPieces] at hw
  · exact .inl (hframe.1 .pc hw)

/-- The stack is kept, popped by RET or pushed by CALL. -/
theorem exec_mem_stack {i : Instr} {s t : State} (h : exec i s = .next t) {a : Word} (ha : a ∈ t.stack) :
    a = s.pc ∨ a ∈ s.stack := by
  obtain ⟨r, rfl⟩ | hframe := exec_inv h
  · exact .inr ha
  by_cases hw : Piece.stack ∈ writtenPieces i
  · obtain rfl | ⟨nnn, rfl⟩ := (writes_stack_iff i).1 hw
    · obtain ⟨b, rest, hs, rfl⟩ | rfl := exec_ret_inv h
      · exact .inr (hs ▸ List.mem_cons_of_mem b ha)
      · exact .inr ha
    · obtain rfl := Host.Outcome.next.inj ((exec_call nnn s).symm.trans h)
      exact List.mem_cons.1 ha
  · have hstack : t.stack = s.stack := hframe.1 .stack hw
    exact .inr (hstack ▸ ha)

/-- An instruction that the table lists no memory write for leaves the memory's data as they are. -/
theorem exec_mem_eq {i : Instr} {s t : State} (hw : Piece.mem ∉ writtenPieces i) (h : exec i s = .next t) :
    t.mem = s.mem := by
  cases i with
  | ldB x | storeRegs x => simp [writtenPieces] at hw
  | ret => obtain ⟨a, rest, -, rfl⟩ | rfl := exec_ret_inv h <;> rfl
  | call nnn => obtain rfl := Host.Outcome.next.inj ((exec_call nnn s).symm.trans h); rfl
  | seImm | sneImm | seReg | sneReg => obtain rfl := Host.Outcome.next.inj h; exact State.skipIf_mem s _
  | skp x | sknp x =>
    obtain ⟨c, rfl⟩ | rfl := keySkip_inv h
    · exact State.skipIf_mem s c
    · rfl
  | ldVxK x => obtain ⟨b, rfl⟩ | rfl := exec_ldVxK_inv h <;> rfl
  | drw x y n => obtain rfl | rfl := exec_drw_inv h <;> rfl
  | loadRegs x =>
    obtain rfl | rfl := exec_loadRegs_inv h
    · exact State.loadBlock_mem s _
    · rfl
  | _ => obtain rfl := Host.Outcome.next.inj h; rfl

/-- The canonical form is kept: FX33 and FX55 write through `MemWrite`. -/
theorem exec_mem_wf {i : Instr} {s t : State} (hm : s.mem.wf = true) (h : exec i s = .next t) : t.mem.wf = true := by
  by_cases hw : Piece.mem ∈ writtenPieces i
  · obtain ⟨x, rfl⟩ | ⟨x, rfl⟩ := (writes_mem_iff i).1 hw
    · obtain rfl | rfl := exec_ldB_inv h
      · exact Memory.writeBytes_wf _ _ _ hm
      · exact hm
    · obtain rfl | rfl := exec_storeRegs_inv h
      · exact writesFrom_wf _ _ _ _ hm
      · exact hm
  · rwa [exec_mem_eq hw h]

/-- After a fetch that succeeds PC is between 2 and 0x1000, so that no instruction takes it past 0x1002 or
around below 0. -/
theorem pc_le_of_pcReachable {s : State} {a : Word} (ha : PcReachable s.advance a) (hfetch : s.pc.toNat + 1 ≤ 0xFFF)
    (hstack : s.StackBounded) : a.toNat ≤ 0x1002 := by
  obtain rfl | rfl | rfl | ha | ha := ha
  · rw [State.advance_pc]; bv_omega
  · rw [State.advance_pc]; bv_omega
  · rw [State.advance_pc]; bv_omega
  · omega
  · exact (hstack a ha).trans (by decide)

/-- A completed step keeps the invariant. -/
theorem State.Completed.inv {s t u : State} {i : Instr} (h : s.Completed i u t) (hs : s.Inv) : t.Inv := by
  obtain ⟨hmem, -, hstack⟩ := hs
  have hfetch := h.fetched
  have hmem' : u.mem.wf = true := exec_mem_wf (s := s.advance) hmem h.executed
  have hpc' : u.pc.toNat ≤ 0x1002 := pc_le_of_pcReachable (exec_pcReachable h.executed) hfetch hstack
  have hstack' : u.StackBounded := by
    intro a ha
    obtain rfl | ha := exec_mem_stack h.executed ha
    · rw [State.advance_pc]; bv_omega
    · exact hstack a ha
  obtain rfl := h.ended
  exact ⟨hmem', hpc', hstack'⟩

/-- Settles O18: PC stays within reach of where a fetch can succeed, a pushed address is where such a fetch left
PC, and the memory stays canonical. -/
theorem stepKeepsTheInvariant : Obligations.StepKeepsTheInvariant := by
  intro s t hs h
  obtain ⟨hmem, hpc, hstack⟩ := hs
  obtain ⟨r, -, rfl⟩ | ⟨r, -, rfl⟩ | ⟨-, hfetch, rfl⟩ | ⟨-, i, u, hdone⟩ := step_inv h
  · exact ⟨hmem, hpc, hstack⟩
  · exact ⟨hmem, hpc, hstack⟩
  · exact ⟨hmem, pc_le_of_pcReachable (.inl rfl) hfetch hstack, hstack⟩
  · exact hdone.inv ⟨hmem, hpc, hstack⟩

end Sys2Proof.Machine
end

section
/-! SUPPORT. The state after reset, with a ROM and without (70_reset_and_hazards.md R320, R322), and the
obligations on it. -/

namespace Sys2Proof.Machine

@[simp] theorem State.reset_getV (x : Nibble) : State.reset.getV x = 0#8 := by
  simp only [State.getV, State.reset, Vector.getElem_replicate]
  rfl

/-- Beyond the font an unlisted address reads as 0 (D12, log 6). -/
theorem Memory.unlisted_beyond_font {a : Nat} (h : 80 ≤ a) : Memory.unlisted a = 0#8 := by
  have hlookup : Memory.unlisted a = hw.font.getD a hw.memFill := if_neg (Nat.not_lt_zero a)
  have hlen : hw.font.length ≤ a := h
  rw [hlookup, List.getD_eq_default _ _ hlen]
  rfl

/-- Settles O7: the font is the table of Params, and beyond it memory is filled with 0. -/
theorem resetGivesTheValuesTheSpecChose : Obligations.ResetGivesTheValuesTheSpecChose :=
  ⟨State.reset_getV, rfl, rfl, fun _ h => Memory.unlisted_beyond_font h, rfl⟩

/-- Settles O9. -/
theorem resetMeetsTheInvariant : Obligations.ResetMeetsTheInvariant :=
  ⟨rfl, by rw [State.PcBounded, State.reset_pc]; decide, by rw [State.StackBounded, State.reset_stack]; nofun⟩

/-- The state after reset with a ROM in memory, the model's own fields kept. -/
def State.loaded (s : State) (rom : List Byte) : State :=
  { State.reset with mem := State.reset.mem.writeBytes 0x200 rom, inputs := s.inputs, stepNo := s.stepNo }

theorem State.hostReset_fits (s : State) {rom : List Byte} (h : rom.length ≤ 3584) :
    s.hostReset rom = .next (s.loaded rom) :=
  if_pos h

theorem State.hostReset_long (s : State) {rom : List Byte} (h : 3584 < rom.length) :
    s.hostReset rom = .refused .romTooLong :=
  if_neg (not_le.2 h)

theorem State.loaded_inv (s : State) (rom : List Byte) : (s.loaded rom).Inv :=
  have ⟨hmem, hpc, hstack⟩ := resetMeetsTheInvariant
  ⟨Memory.writeBytes_wf _ _ _ hmem, hpc, hstack⟩

/-- Settles O8: the ROM is a run of writes into the empty memory, which reads back inside the ROM and is not
seen outside it. -/
theorem hostResetLoadsTheRomVerbatim : Obligations.HostResetLoadsTheRomVerbatim := by
  refine fun s rom => ⟨fun hlen => ?_, s.hostReset_long⟩
  have hspan : 0x200 + rom.length ≤ memSize := by simp only [memSize]; omega
  exact ⟨s.loaded rom, s.hostReset_fits hlen,
    fun k hk => Memory.read_writeBytes _ _ k rom hk hspan rfl,
    fun a ha => Memory.read_writeBytes_other _ _ a rom ha, rfl, s.loaded_inv rom⟩

end Sys2Proof.Machine
end

section
/-! SUPPORT. The "reads" column of 10_state.md R34 for the inputs: an instruction that does not look at the
keyboard or the random byte commutes with exchanging the model's own fields, whatever inputs they give. -/

namespace Sys2Proof.Machine

section
variable {s : State} {inputs : List StepInput} {stepNo : Nat}

/-- An instruction does the same on other values in the model's own fields when these agree on the inputs it
reads. The arms under `_` neither branch nor read an input. -/
theorem exec_withFeed_of_reads (i : Instr)
    (keyboard : readsKeyboard i = true → s.input.keyDown = (s.withFeed inputs stepNo).input.keyDown ∧
      firstKeyDown s.input = firstKeyDown (s.withFeed inputs stepNo).input)
    (random : readsRandom i = true → s.input.randByte = (s.withFeed inputs stepNo).input.randByte) :
    exec i (s.withFeed inputs stepNo) = feedResult inputs stepNo (exec i s) := by
  cases i with
  | skp x => exact keySkip_withFeed x true (keyboard rfl).1
  | sknp x => exact keySkip_withFeed x false (keyboard rfl).1
  | ldVxK x => exact execLdVxK_withFeed x (keyboard rfl).2
  | rnd x kk => exact execRnd_withFeed x kk (random rfl)
  | ret => exact execRet_withFeed
  | call nnn => rw [exec_call, exec_call]; rfl
  | seImm | sneImm | seReg | sneReg => exact congrArg Host.Outcome.next (State.withFeed_skipIf _)
  | drw | ldB | storeRegs => exact ite_feedResult rfl rfl
  | loadRegs => exact ite_feedResult (congrArg Host.Outcome.next (State.withFeed_loadBlock _)) rfl
  | _ => rfl

end

/-- Settles O20: the second state is the first with other values in the model's own fields, and the aggregate
does not show these. -/
theorem onlyKeyAndRandomInstructionsSeeTheInputs : Obligations.OnlyKeyAndRandomInstructionsSeeTheInputs := by
  intro i s s' t t' hview hkeyboard hrandom hexec hexec'
  obtain ⟨inputs, stepNo, rfl⟩ := State.exists_withFeed_of_observe_eq hview
  rw [exec_withFeed_of_reads i hkeyboard hrandom, hexec] at hexec'
  obtain rfl : t.withFeed inputs stepNo = t' := Host.Outcome.next.inj hexec'
  rfl

end Sys2Proof.Machine
end

section
/-! SUPPORT. The obligations on RET, SYS and CALL (40_system_and_flow.md R122, R123, R125). -/

namespace Sys2Proof.Machine

/-- Settles O25. -/
theorem retPopsOrHaltsOnAnEmptyStack : Obligations.RetPopsOrHaltsOnAnEmptyStack :=
  fun s => ⟨fun a rest h => ⟨_, exec_ret_cons h, rfl, rfl, keepsAllBut_return s a rest⟩, exec_ret_nil⟩

/-- Settles O26. -/
theorem sysChangesNothing : Obligations.SysChangesNothing :=
  fun nnn s => ⟨s, exec_sys nnn s, keepsAllBut_refl [] noReg s⟩

/-- A full stack of finite capacity (60_exceptions.md R286). -/
theorem callWith_full {cfg : Config} {s : State} (nnn : Addr12) (h : cfg.stackCapacity = some s.stack.length) :
    callWith cfg nnn s = .next (haltedFrom s .stackOverflow) :=
  if_pos h

/-- Below its capacity a finite stack behaves as this hardware's unbounded one. -/
theorem callWith_not_full {cfg : Config} {s : State} (nnn : Addr12) (h : cfg.stackCapacity ≠ some s.stack.length) :
    callWith cfg nnn s = exec (.call nnn) s :=
  (if_neg h).trans (exec_call nnn s).symm

/-- Settles O28. -/
theorem callPushesTheReturnAddress : Obligations.CallPushesTheReturnAddress := by
  refine ⟨fun nnn s => ?_, fun cfg cap nnn s hcap => ⟨fun hfull => ?_, fun hroom => ?_⟩⟩
  · exact ⟨_, exec_call nnn s, rfl, zextAddr_toNat nnn, keepsAllBut_call s s.pc (zextAddr nnn)⟩
  · exact callWith_full nnn (hfull ▸ hcap)
  · refine callWith_not_full nnn fun h => hroom ?_
    exact (Option.some.inj (hcap.symm.trans h)).symm

/-- Settles O29: CALL pushed the old PC, and RET pops what is on top. -/
theorem callThenReturnRestoresThePc : Obligations.CallThenReturnRestoresThePc := by
  intro nnn s t u hcall hstack
  obtain rfl := Host.Outcome.next.inj ((exec_call nnn s).symm.trans hcall)
  have hpushed : u.stack = s.pc :: s.stack := hstack
  exact ⟨_, exec_ret_cons hpushed, rfl, rfl⟩

end Sys2Proof.Machine
end

section
/-! SUPPORT. The arithmetic, logic, shift and random instructions in numbers (41_alu.md R164 to R174), and the
obligations on them. -/

namespace Sys2Proof.Machine

/-! The flags, and the results as VF and V[X] hold them. -/

theorem flagByte_decide (p : Prop) [Decidable p] : flagByte (decide p) = if p then 1#8 else 0#8 := by
  simp [flagByte]

theorem flagByte_toNat (b : Bool) : (flagByte b).toNat = b.toNat := by
  cases b <;> rfl

/-- VF holds the flag last written, also when VF is the destination (D4, log 13). -/
theorem setResultFlag_flag (s : State) (x : Nibble) (b : Byte) (c : Bool) :
    (s.setResultFlag hw x b c).getV 0xF#4 = flagByte c :=
  (State.setResultFlag_getV s x flagReg b c).trans (if_pos rfl)

/-- Any other destination holds the result. -/
theorem setResultFlag_result (s : State) {x : Nibble} (b : Byte) (c : Bool) (hx : x ≠ 0xF#4) :
    (s.setResultFlag hw x b c).getV x = b := by
  have hflag : ¬ flagReg = x := hx.symm
  rw [State.setResultFlag_getV, if_neg hflag, if_pos rfl]

theorem byte_sub_toNat (a b : Byte) : (a - b).toNat = (a.toNat + 256 - b.toNat) % 256 := by
  rw [BitVec.toNat_sub]
  have := b.isLt
  omega

/-- One bit of a byte as a number. -/
theorem getLsbD_toNat (a : Byte) (k : Nat) : (a.getLsbD k).toNat = a.toNat / 2 ^ k % 2 :=
  Nat.toNat_testBit a.toNat k

/-- The bit SHR shifts out. -/
theorem lowBit_toNat (a : Byte) : (lowBit a).toNat = a.toNat % 2 := by
  rw [lowBit, getLsbD_toNat, pow_zero, Nat.div_one]

/-- The bit SHL shifts out. -/
theorem highBit_toNat (a : Byte) : (highBit a).toNat = a.toNat / 128 := by
  rw [highBit, getLsbD_toNat]
  have := a.isLt
  omega

/-- Settles O33. -/
theorem addImmediateWrapsWithoutAFlag : Obligations.AddImmediateWrapsWithoutAFlag := by
  intro x kk s
  refine ⟨_, exec_addImm x kk s, ?_, keepsAllBut_setV s x _⟩
  rw [State.getV_setV_same, BitVec.toNat_add]

/-- Settles O34: each instruction is one register write, of the bitwise operation. -/
theorem logicInstructionsWorkBitByBit : Obligations.LogicInstructionsWorkBitByBit := by
  intro x y s
  refine ⟨⟨_, exec_or x y s, keepsAllBut_setV s x _, fun k => ?_⟩,
    ⟨_, exec_and x y s, keepsAllBut_setV s x _, fun k => ?_⟩,
    ⟨_, exec_xor x y s, keepsAllBut_setV s x _, fun k => ?_⟩⟩
  · rw [State.getV_setV_same, BitVec.getLsbD_or]
  · rw [State.getV_setV_same, BitVec.getLsbD_and]
  · rw [State.getV_setV_same, BitVec.getLsbD_xor]

/-- Settles O35: the result is read in V[X], the flag in VF. -/
theorem addSubSubnGiveTheResultAndThenTheFlag : Obligations.AddSubSubnGiveTheResultAndThenTheFlag := by
  intro x y s
  refine ⟨⟨_, exec_add x y s, keepsAllBut_setResultFlag s x _ _, fun hx => ?_, ?_⟩,
    ⟨_, exec_sub x y s, keepsAllBut_setResultFlag s x _ _, fun hx => ?_, ?_⟩,
    ⟨_, exec_subn x y s, keepsAllBut_setResultFlag s x _ _, fun hx => ?_, ?_⟩⟩
  · rw [setResultFlag_result s _ _ hx, BitVec.toNat_add]
  · rw [setResultFlag_flag, carryOut, flagByte_decide]
  · rw [setResultFlag_result s _ _ hx, byte_sub_toNat]
  · rw [setResultFlag_flag, noBorrow, flagByte_decide]
  · rw [setResultFlag_result s _ _ hx, byte_sub_toNat]
  · rw [setResultFlag_flag, noBorrow, flagByte_decide]

/-- Settles O36: a shift by one halves or doubles, and the bit that leaves the byte is in VF. -/
theorem shiftsPutTheBitShiftedOutInVf : Obligations.ShiftsPutTheBitShiftedOutInVf := by
  intro x y s
  refine ⟨⟨_, exec_shr x y s, keepsAllBut_setResultFlag s x _ _, fun hx => ?_, ?_⟩,
    ⟨_, exec_shl x y s, keepsAllBut_setResultFlag s x _ _, fun hx => ?_, ?_⟩⟩
  · rw [setResultFlag_result s _ _ hx, BitVec.toNat_ushiftRight, Nat.shiftRight_eq_div_pow, pow_one]
  · rw [setResultFlag_flag, flagByte_toNat, lowBit_toNat]
  · rw [setResultFlag_result s _ _ hx, BitVec.toNat_shiftLeft, Nat.shiftLeft_eq, pow_one]
  · rw [setResultFlag_flag, flagByte_toNat, highBit_toNat]

/-- An input the host has lined up is the step's input (log 1). -/
theorem State.input_cons {s : State} {inp : StepInput} {rest : List StepInput} (h : s.inputs = inp :: rest) :
    s.input = inp := by
  rw [State.input, h]

/-- Settles O37: the masked byte is what V[X] holds, whatever the draw. -/
theorem rndMasksTheRandomByte : Obligations.RndMasksTheRandomByte := by
  intro x kk s
  have hv : (s.setV x (s.input.randByte &&& kk)).getV x = s.input.randByte &&& kk := State.getV_setV_same s x _
  refine ⟨_, exec_rnd x kk s, keepsAllBut_setV s x _, hv, fun k hk => ?_, fun inp rest h => ?_⟩
  · rw [hv, BitVec.getLsbD_and, hk, Bool.and_false]
  · rw [hv, State.input_cons h]

end Sys2Proof.Machine
end

section
/-! SUPPORT. The key instructions and the keyboard's answer (43_keys_timers_memory.md R230 to R235, 60_exceptions.md
R301), and the obligations on them. -/

namespace Sys2Proof.Machine

/-! ## `FirstKeyDown` -/

/-- A key state with every key up is 0. -/
theorem keyDown_eq_zero_iff (inp : StepInput) : inp.keyDown = 0#16 ↔ ∀ k, keyIsDown inp k = false := by
  constructor
  · intro h k
    rw [keyIsDown, h, BitVec.getLsbD_zero]
  · intro h
    apply BitVec.eq_of_getLsbD_eq
    intro j hj
    have hup := h (BitVec.ofNat 4 j)
    rw [keyIsDown, BitVec.toNat_ofNat, Nat.mod_eq_of_lt (by omega)] at hup
    rw [hup, BitVec.getLsbD_zero]

/-- Sixteen keys from any one on are all of them. -/
theorem exists_key_offset (pick k : Nibble) : ∃ m < 16, pick + BitVec.ofNat 4 m = k := by
  refine ⟨(k - pick).toNat, (k - pick).isLt, ?_⟩
  rw [BitVec.ofNat_toNat, BitVec.setWidth_eq, BitVec.add_comm, BitVec.sub_add_cancel]

theorem firstKeyDown_eq_none_iff (inp : StepInput) : firstKeyDown inp = none ↔ inp.keyDown = 0#16 := by
  rw [firstKeyDown, seekKey_none, keyDown_eq_zero_iff]
  constructor
  · intro h k
    obtain ⟨m, hm, rfl⟩ := exists_key_offset inp.keyPick k
    exact h m hm
  · exact fun h m _ => h _

theorem firstKeyDown_down {inp : StepInput} {k : Nibble} (h : firstKeyDown inp = some k) : keyIsDown inp k = true :=
  seekKey_down inp 16 inp.keyPick k h

/-- The keyboard's own pick is the answer when it is down. -/
theorem firstKeyDown_pick {inp : StepInput} (h : keyIsDown inp inp.keyPick = true) :
    firstKeyDown inp = some inp.keyPick :=
  if_pos h

/-- Settles O45: for the last clause, the keyboard picks the key itself. -/
theorem firstKeyDownCanBeAnyKeyThatIsDown : Obligations.FirstKeyDownCanBeAnyKeyThatIsDown :=
  fun keys rand => ⟨fun pick => firstKeyDown_eq_none_iff ⟨keys, pick, rand⟩, fun _ _ h => firstKeyDown_down h,
    fun j h => ⟨j, firstKeyDown_pick (inp := ⟨keys, j, rand⟩) h⟩⟩

/-! ## LD Vx, K -/

/-- A key index as a register holds it. -/
theorem setWidth_nibble_toNat (k : Nibble) : (k.setWidth 8).toNat = k.toNat :=
  BitVec.toNat_setWidth_of_le (by decide)

/-- Settles O44: the keyboard answers exactly when a key is down, and with one that is. -/
theorem keyWaitStoresAKeyOrRepeats : Obligations.KeyWaitStoresAKeyOrRepeats := by
  refine fun x s => ⟨fun hdown => ?_, fun hup => ?_⟩
  · obtain ⟨k, hk⟩ := Option.ne_none_iff_exists'.1 (mt (firstKeyDown_eq_none_iff s.input).1 hdown)
    have hv : ((s.setV x (k.setWidth 8)).getV x).toNat = k.toNat := by
      rw [State.getV_setV_same, setWidth_nibble_toNat]
    refine ⟨_, exec_ldVxK_some x hk, keepsAllBut_setV s x _, ?_, ?_⟩
    · rw [hv]; exact Nat.le_of_lt_succ k.isLt
    · rw [hv]; exact firstKeyDown_down hk
  · exact ⟨_, exec_ldVxK_none x ((firstKeyDown_eq_none_iff s.input).2 hup), keepsAllBut_setPc s _, rfl⟩

/-! ## SKP and SKNP -/

/-- The key a skip asks for, by the number in V[X]. -/
theorem keyIsDown_setWidth (inp : StepInput) {b : Byte} (h : b.toNat ≤ 15) :
    keyIsDown inp (b.setWidth 4) = inp.keyDown.getLsbD b.toNat := by
  rw [keyIsDown, BitVec.toNat_setWidth, Nat.mod_eq_of_lt (by omega)]

/-- Settles O43: each is a conditional skip, SKNP under the negated test. -/
theorem keySkipsFollowTheKeyState : Obligations.KeySkipsFollowTheKeyState := by
  refine fun x s => ⟨fun h => ⟨?_, ?_⟩, fun h => ⟨exec_skp_out x s h, exec_sknp_out x s h⟩⟩
  · refine ⟨_, exec_skp_ok x s h, keepsAllBut_skipIf s _, ?_⟩
    rw [State.skipIf_pc, keyIsDown_setWidth s.input h, beq_true]
  · refine ⟨_, exec_sknp_ok x s h, keepsAllBut_skipIf s _, ?_⟩
    rw [State.skipIf_pc, keyIsDown_setWidth s.input h, beq_false]
    cases s.input.keyDown.getLsbD (s.getV x).toNat <;> rfl

end Sys2Proof.Machine
end

section
/-! SUPPORT. The instructions that compute I (43_keys_timers_memory.md R239, R240), and the obligations on them. -/

namespace Sys2Proof.Machine

theorem zextByte_toNat (b : Byte) : (zextByte b).toNat = b.toNat :=
  BitVec.toNat_setWidth_of_le (by decide)

/-- Glyph addresses stay far below the wrap at 16 bits. -/
theorem glyphAddr_toNat (b : Byte) : (glyphAddr hw b).toNat = 5 * b.toNat := by
  have hglyph : glyphAddr hw b = 0#16 + 5#16 * zextByte b := rfl
  have := b.isLt
  rw [hglyph, BitVec.zero_add, BitVec.toNat_mul, zextByte_toNat, BitVec.toNat_ofNat]
  omega

/-- Settles O47. -/
theorem addIWrapsAtSixteenBits : Obligations.AddIWrapsAtSixteenBits := by
  intro x s
  refine ⟨_, exec_addI x s, ?_, keepsAllBut_setI s _⟩
  rw [State.setI_i, BitVec.toNat_add, zextByte_toNat]

/-- Settles O48. -/
theorem ldFPointsAtTheGlyph : Obligations.LdFPointsAtTheGlyph :=
  fun x s => ⟨_, exec_ldF x s, glyphAddr_toNat (s.getV x), keepsAllBut_setI s _⟩

end Sys2Proof.Machine
end

section
/-! SUPPORT. The instructions that move bytes between registers and memory (43_keys_timers_memory.md R242 to R244),
the canonical form of memory (log 6), and the obligations on them. -/

namespace Sys2Proof.Machine

/-! ## LD B -/

theorem hundreds_toNat (b : Byte) : (hundreds b).toNat = b.toNat / 100 := by
  have := b.isLt
  rw [hundreds, BitVec.toNat_ofNat]
  omega

theorem tens_toNat (b : Byte) : (tens b).toNat = b.toNat / 10 % 10 := by
  rw [tens, BitVec.toNat_ofNat]
  omega

theorem ones_toNat (b : Byte) : (ones b).toNat = b.toNat % 10 := by
  rw [ones, BitVec.toNat_ofNat]
  omega

/-- Settles O49: the digits are a run of three writes. -/
theorem bcdWritesThreeDecimalDigits : Obligations.BcdWritesThreeDecimalDigits := by
  refine fun x s hm => ⟨fun h => ?_, exec_ldB_out x s⟩
  have hspan : s.i.toNat + 3 ≤ memSize := by simp only [memSize]; omega
  have hread : ∀ (k : Nat) (hk : k < 3), (s.withDigits x).mem.read (s.i.toNat + k) = (digits (s.getV x))[k]'hk :=
    fun k hk => Memory.read_writeBytes s.mem _ k (digits (s.getV x)) hk hspan hm
  refine ⟨_, exec_ldB_ok x s h, keepsAllBut_setMem s _,
    fun a ha => Memory.read_writeBytes_other _ _ a _ ha, ?_, ?_, ?_⟩
  · exact (congrArg BitVec.toNat (hread 0 (by decide))).trans (hundreds_toNat _)
  · exact (congrArg BitVec.toNat (hread 1 (by decide))).trans (tens_toNat _)
  · exact (congrArg BitVec.toNat (hread 2 (by decide))).trans (ones_toNat _)

/-! ## FX55 and FX65 -/

/-- A byte of the stored block is its register. -/
theorem State.storeBlock_read {s : State} {x k : Nibble} (hm : s.mem.wf = true) (h : s.i.toNat + x.toNat ≤ 0xFFF)
    (hk : k.toNat ≤ x.toNat) : (s.storeBlock (x.toNat + 1)).mem.read (s.i.toNat + k.toNat) = s.getV k := by
  have hspan : s.i.toNat + (x.toNat + 1) ≤ memSize := by simp only [memSize]; omega
  rw [State.storeBlock_mem_eq, read_writesFrom _ _ _ _ _ (Nat.lt_succ_of_le hk) hspan hm, BitVec.ofNat_toNat,
    BitVec.setWidth_eq]

/-- A register of the loaded block is its byte. -/
theorem State.loadBlock_getV_of_le (s : State) {x k : Nibble} (hk : k.toNat ≤ x.toNat) :
    (s.loadBlock (x.toNat + 1)).getV k = s.mem.read (s.i.toNat + k.toNat) := by
  rw [State.loadBlock_getV s _ x.isLt, if_pos (Nat.lt_succ_of_le hk)]

/-- Settles O50. -/
theorem storeRegsWritesTheBlock : Obligations.StoreRegsWritesTheBlock :=
  fun x s hm h => ⟨_, exec_storeRegs_ok x s h, keepsAllBut_setMem s _,
    fun a ha => read_writesFrom_other _ _ a _ _ ha, fun _ hk => State.storeBlock_read hm h hk⟩

/-- Settles O51. -/
theorem loadRegsReadsTheBlock : Obligations.LoadRegsReadsTheBlock :=
  fun x s => ⟨fun h => ⟨_, exec_loadRegs_ok x s h, keepsAllBut_loadBlock s x,
    fun _ hk => s.loadBlock_getV_of_le hk⟩, exec_loadRegs_out x s⟩

/-- Settles O52: the load reads the bytes the store wrote. -/
theorem storeThenLoadGivesTheRegistersBack : Obligations.StoreThenLoadGivesTheRegistersBack := by
  intro x s t u w hm h hstore hi hkept hload k hk
  obtain rfl := Host.Outcome.next.inj ((exec_storeRegs_ok x s h).symm.trans hstore)
  have hu : u.i.toNat + x.toNat ≤ 0xFFF := hi ▸ h
  obtain rfl := Host.Outcome.next.inj ((exec_loadRegs_ok x u hu).symm.trans hload)
  rw [State.loadBlock_getV_of_le u hk, hi, hkept k hk, State.storeBlock_read hm h hk]

/-- Settles O53: the two bytes a fetch at I reads are V0 and V1. -/
theorem storedWordIsFetchedNext : Obligations.StoredWordIsFetchedNext := by
  intro x s t hm hx h hstore
  obtain rfl := Host.Outcome.next.inj ((exec_storeRegs_ok x s h).symm.trans hstore)
  have high : (s.storeBlock (x.toNat + 1)).mem.read s.i.toNat = s.getV 0x0#4 :=
    State.storeBlock_read (k := 0x0#4) hm h (Nat.zero_le _)
  have low : (s.storeBlock (x.toNat + 1)).mem.read (s.i.toNat + 1) = s.getV 0x1#4 :=
    State.storeBlock_read (k := 0x1#4) hm h hx
  rw [State.fetch_eq _ (show s.i.toNat + 1 ≤ 0xFFF by omega)]
  exact congrArg some (congrArg₂ wordOfBytes high low)

/-! ## The canonical form -/

/-- The first listed address of a canonical memory reads unlike its unlisted value. -/
theorem Memory.read_head_ne_unlisted {a : Nat} {v : Byte} {m : Memory} (h : Memory.wf ((a, v) :: m) = true) :
    Memory.read ((a, v) :: m) a ≠ Memory.unlisted a := by
  rw [Memory.read_cons, if_pos rfl]
  exact ((Memory.wf_cons a v m).1 h).2.1

/-- Canonical memories that read alike list no first address below the other's. -/
theorem Memory.head_le_of_read_eq {a b : Nat} {v w : Byte} {m m' : Memory} (h : Memory.wf ((a, v) :: m) = true)
    (h' : Memory.wf ((b, w) :: m') = true)
    (heq : ∀ c, Memory.read ((a, v) :: m) c = Memory.read ((b, w) :: m') c) : b ≤ a := by
  by_contra hab
  obtain ⟨-, -, hlt, -⟩ := (Memory.wf_cons b w m').1 h'
  refine Memory.read_head_ne_unlisted h ((heq a).trans (Memory.read_below _ a fun c hc => ?_))
  obtain rfl | hc := List.mem_cons.1 hc
  · exact not_le.1 hab
  · exact (not_le.1 hab).trans (hlt c hc)

/-- The rest of two canonical memories with the same first address reads alike when they do. -/
theorem Memory.read_tail_eq {a : Nat} {v w : Byte} {m m' : Memory} (h : Memory.wf ((a, v) :: m) = true)
    (h' : Memory.wf ((a, w) :: m') = true)
    (heq : ∀ c, Memory.read ((a, v) :: m) c = Memory.read ((a, w) :: m') c) (c : Nat) :
    Memory.read m c = Memory.read m' c := by
  obtain ⟨-, -, hlt, -⟩ := (Memory.wf_cons a v m).1 h
  obtain ⟨-, -, hlt', -⟩ := (Memory.wf_cons a w m').1 h'
  by_cases hc : c = a
  · subst hc
    rw [Memory.read_below m c hlt, Memory.read_below m' c hlt']
  · simpa only [Memory.read_cons, if_neg hc] using heq c

/-- Settles O54, by induction on the two lists: the first entries agree, because a listed address reads unlike
its unlisted value and the addresses rise. -/
theorem canonicalMemoriesThatReadAlikeAreEqual : Obligations.CanonicalMemoriesThatReadAlikeAreEqual := by
  intro m
  induction m with
  | nil =>
    intro m' _ hm' heq
    cases m' with
    | nil => rfl
    | cons c m' => exact absurd (heq c.1).symm (Memory.read_head_ne_unlisted hm')
  | cons c m ih =>
    intro m' hm hm' heq
    cases m' with
    | nil => exact absurd (heq c.1) (Memory.read_head_ne_unlisted hm)
    | cons d m' =>
      obtain ⟨a, v⟩ := c
      obtain ⟨b, w⟩ := d
      obtain rfl : a = b :=
        le_antisymm (Memory.head_le_of_read_eq hm' hm fun c => (heq c).symm) (Memory.head_le_of_read_eq hm hm' heq)
      have hvw : v = w := by simpa [Memory.read_cons] using heq a
      obtain ⟨-, -, -, htail⟩ := (Memory.wf_cons a v m).1 hm
      obtain ⟨-, -, -, htail'⟩ := (Memory.wf_cons a w m').1 hm'
      rw [hvw, ih m' htail htail' (Memory.read_tail_eq hm hm' heq)]

end Sys2Proof.Machine
end

section
/-! SUPPORT. DRW as one XOR of the sprite (42_address_and_display.md R202 to R207), and the obligations on the
display. -/

namespace Sys2Proof.Machine

/-- Settles O39. -/
theorem toggleChangesOnePixelAndReportsOnToOff : Obligations.ToggleChangesOnePixelAndReportsOnToOff := by
  intro d x y
  refine ⟨?_, ?_, fun x' y' h => ?_⟩
  · rw [Canvas.toggle_disp, Display.pixel_flip]; simp
  · rw [Canvas.toggle_collision, Bool.false_or]
  · have hother : ¬ (x = x' ∧ y = y') := fun e => h.elim (fun hx => hx e.1.symm) fun hy => hy e.2.symm
    rw [Canvas.toggle_disp, Display.pixel_flip, decide_eq_false hother, Bool.xor_false]

/-- `q` is `p` with the pixels of `cov` XORed at once: each inverted, every other kept, and the collision raised
exactly when one of them was on. -/
structure Canvas.XoredOn (cov : Fin 64 → Fin 32 → Prop) (p q : Canvas) : Prop where
  inverted : ∀ x y, cov x y → q.disp.pixel x y = !p.disp.pixel x y
  kept : ∀ x y, ¬ cov x y → q.disp.pixel x y = p.disp.pixel x y
  collision : q.collision = true ↔ p.collision = true ∨ ∃ x y, cov x y ∧ p.disp.pixel x y = true

/-- No pixel XORed. -/
theorem Canvas.XoredOn.refl {cov : Fin 64 → Fin 32 → Prop} (h : ∀ x y, ¬ cov x y) (p : Canvas) : p.XoredOn cov p :=
  ⟨fun x y hc => absurd hc (h x y), fun _ _ _ => rfl,
    ⟨.inl, fun h' => h'.elim id fun ⟨x, y, hc, _⟩ => absurd hc (h x y)⟩⟩

/-- Two XORs of disjoint sets of pixels are one XOR of their union. -/
theorem Canvas.XoredOn.trans {cov cov' cov'' : Fin 64 → Fin 32 → Prop} {p q r : Canvas} (h : p.XoredOn cov q)
    (h' : q.XoredOn cov' r) (disjoint : ∀ x y, cov x y → ¬ cov' x y)
    (union : ∀ x y, cov'' x y ↔ cov x y ∨ cov' x y) : p.XoredOn cov'' r := by
  have fresh : ∀ x y, cov' x y → q.disp.pixel x y = p.disp.pixel x y :=
    fun x y hc' => h.kept x y fun hc => disjoint x y hc hc'
  refine ⟨fun x y hc'' => ?_, fun x y hc'' => ?_, ?_⟩
  · obtain hc | hc' := (union x y).1 hc''
    · rw [h'.kept x y (disjoint x y hc), h.inverted x y hc]
    · rw [h'.inverted x y hc', fresh x y hc']
  · obtain ⟨hc, hc'⟩ := not_or.1 (mt (union x y).2 hc'')
    rw [h'.kept x y hc', h.kept x y hc]
  · rw [h'.collision, h.collision, or_assoc]
    refine or_congr_right ⟨?_, ?_⟩
    · rintro (⟨x, y, hc, hon⟩ | ⟨x, y, hc', hon⟩)
      · exact ⟨x, y, (union x y).2 (.inl hc), hon⟩
      · exact ⟨x, y, (union x y).2 (.inr hc'), fresh x y hc' ▸ hon⟩
    · rintro ⟨x, y, hc'', hon⟩
      obtain hc | hc' := (union x y).1 hc''
      · exact .inl ⟨x, y, hc, hon⟩
      · exact .inr ⟨x, y, hc', (fresh x y hc').trans hon⟩

/-- One sprite row XORs the pixels of its screen row that its bits lie on. -/
theorem Canvas.drawRow_xoredOn (row vx : Byte) (y : Fin 32) (p : Canvas) :
    p.XoredOn (fun x' y' => y = y' ∧ ColCovers row vx 8 x') (p.drawRow row vx y) := by
  obtain ⟨on, off, other, coll⟩ := Canvas.drawCols_spec row vx y 8 le_rfl p
  rw [Canvas.drawRow_eq]
  refine ⟨?_, fun x' y' h => ?_, coll.trans (or_congr_right ?_)⟩
  · rintro x' _ ⟨rfl, hcol⟩
    exact on x' hcol
  · by_cases hy : y = y'
    · subst hy
      exact off x' fun hcol => h ⟨rfl, hcol⟩
    · exact other x' y' (Ne.symm hy)
  · constructor
    · rintro ⟨x', hcol, hon⟩
      exact ⟨x', y, ⟨rfl, hcol⟩, hon⟩
    · rintro ⟨x', _, ⟨rfl, hcol⟩, hon⟩
      exact ⟨x', hcol, hon⟩

/-- The pixels a sprite covers, by screen row and column. -/
theorem spriteCovers_iff (m : Memory) (base : Word) (vx vy : Byte) (rows : Nat) (x : Fin 64) (y : Fin 32) :
    SpriteCovers m base vx vy rows x y ↔
      ∃ r < rows, spriteRow vy r = y ∧ ColCovers (m.read (base.toNat + r)) vx 8 x := by
  have hrow : ∀ r, spriteRow vy r = y ↔ (vy.toNat + r) % 32 = y.val := fun r => Fin.ext_iff
  have hcol : ∀ c, spriteCol vx c = x ↔ (vx.toNat + c) % 64 = x.val := fun c => Fin.ext_iff
  simp only [SpriteCovers, ColCovers, hrow, hcol, spriteBit]
  constructor
  · rintro ⟨r, hr, c, hc, hx, hy, hbit⟩
    exact ⟨r, hr, hy, c, hc, hx, hbit⟩
  · rintro ⟨r, hr, hy, c, hc, hx, hbit⟩
    exact ⟨r, hr, c, hc, hx, hy, hbit⟩

theorem spriteCovers_succ (m : Memory) (base : Word) (vx vy : Byte) (rows : Nat) (x : Fin 64) (y : Fin 32) :
    SpriteCovers m base vx vy (rows + 1) x y ↔
      SpriteCovers m base vx vy rows x y ∨
        spriteRow vy rows = y ∧ ColCovers (m.read (base.toNat + rows)) vx 8 x := by
  rw [spriteCovers_iff, spriteCovers_iff]
  constructor
  · rintro ⟨r, hr, h⟩
    obtain hr | rfl := Nat.lt_succ_iff_lt_or_eq.1 hr
    · exact .inl ⟨r, hr, h⟩
    · exact .inr h
  · rintro (⟨r, hr, h⟩ | h)
    · exact ⟨r, by omega, h⟩
    · exact ⟨rows, by omega, h⟩

/-- DRW's loops are one XOR of the sprite: its rows lie on distinct screen rows (R206). -/
theorem Canvas.drawSprite_xoredOn (m : Memory) (base : Word) (vx vy : Byte) {rows : Nat} (hrows : rows ≤ 16)
    (p : Canvas) : p.XoredOn (SpriteCovers m base vx vy rows) (Canvas.drawSprite m base vx vy rows p) := by
  induction rows with
  | zero => exact .refl (fun x y ⟨r, hr, _⟩ => absurd hr (Nat.not_lt_zero r)) p
  | succ n ih =>
    refine (ih (by omega)).trans (Canvas.drawRow_xoredOn _ vx (spriteRow vy n) _) ?_
      (spriteCovers_succ m base vx vy n)
    rintro x y hc ⟨hy, -⟩
    obtain ⟨r, hr, hry, -⟩ := (spriteCovers_iff m base vx vy n x y).1 hc
    have hrn : r = n := spriteRow_inj vy r n (by omega) (by omega) (hry.trans hy.symm)
    omega

/-! ## DRW -/

/-- The pixels DXYN XORs in `s`. -/
def State.Covered (s : State) (x y n : Nibble) : Fin 64 → Fin 32 → Prop :=
  SpriteCovers s.mem s.i (s.getV x) (s.getV y) n.toNat

theorem State.drawing_xoredOn (s : State) (x y n : Nibble) :
    Canvas.XoredOn (s.Covered x y n) ⟨s.disp, false⟩ (s.drawing x y n) :=
  Canvas.drawSprite_xoredOn _ _ _ _ n.isLt.le _

/-- VF after DRW is the collision flag. -/
theorem State.drawn_flag (s : State) (x y n : Nibble) :
    (s.drawn x y n).getV 0xF#4 = flagByte (s.drawing x y n).collision :=
  State.getV_setV_same _ flagReg _

theorem flagByte_eq_one_iff (b : Bool) : flagByte b = 1#8 ↔ b = true := by
  cases b <;> decide

/-- VF is 1 exactly when a covered pixel was on. -/
theorem State.drawn_flag_eq_one_iff (s : State) (x y n : Nibble) :
    (s.drawn x y n).getV 0xF#4 = 1#8 ↔ ∃ px py, s.Covered x y n px py ∧ s.disp.pixel px py = true := by
  rw [State.drawn_flag, flagByte_eq_one_iff, (s.drawing_xoredOn x y n).collision]
  exact or_iff_right Bool.false_ne_true

/-- Settles O40. -/
theorem drwXorsTheWholeSpriteAtOnce : Obligations.DrwXorsTheWholeSpriteAtOnce := by
  intro x y n s h
  have hxor := s.drawing_xoredOn x y n
  refine ⟨_, exec_drw_ok x y n s h, keepsAllBut_drawn s x y n, hxor.inverted, hxor.kept,
    (s.drawn_flag_eq_one_iff x y n).2, fun hoff => ?_⟩
  have hno : (s.drawing x y n).collision = false := by
    rw [Bool.eq_false_iff, ne_eq, hxor.collision]
    rintro (hc | ⟨px, py, hc, hon⟩)
    · cases hc
    · cases (hoff px py hc).symm.trans hon
  rw [State.drawn_flag, hno]
  rfl

/-- A state with the memory, I and origin of `s` draws on the same pixels. -/
theorem State.covered_drawn {s : State} {x y n : Nibble} (hx : (s.drawn x y n).getV x = s.getV x)
    (hy : (s.drawn x y n).getV y = s.getV y) : (s.drawn x y n).Covered x y n = s.Covered x y n := by
  rw [State.Covered, hx, hy]
  rfl

/-- Settles O41: both draws XOR the same pixels, so each is back, and the second finds on what the first found
off. -/
theorem drawingTwiceRestoresTheDisplay : Obligations.DrawingTwiceRestoresTheDisplay := by
  intro x y n s t u h hst hx hy htu
  obtain rfl := Host.Outcome.next.inj ((exec_drw_ok x y n s h).symm.trans hst)
  obtain rfl := Host.Outcome.next.inj ((exec_drw_ok x y n (s.drawn x y n) h).symm.trans htu)
  have first := s.drawing_xoredOn x y n
  have second := (s.drawn x y n).drawing_xoredOn x y n
  rw [State.covered_drawn hx hy] at second
  refine ⟨fun px py => ?_, ?_⟩
  · by_cases hc : s.Covered x y n px py
    · exact (second.inverted px py hc).trans ((congrArg not (first.inverted px py hc)).trans (Bool.not_not _))
    · exact (second.kept px py hc).trans (first.kept px py hc)
  · rw [State.drawn_flag_eq_one_iff, State.covered_drawn hx hy]
    refine exists_congr fun px => exists_congr fun py => and_congr_right fun hc => ?_
    have hpixel : (s.drawn x y n).disp.pixel px py = !s.disp.pixel px py := first.inverted px py hc
    rw [hpixel, Bool.not_eq_true']

/-- An element of port `disp_out` (60_exceptions.md R303). -/
theorem State.dispOut_getElem (s : State) {n : Nat} (h : n < 2048) :
    s.dispOut[n] = s.disp.pixel (Fin.ofNat 64 n) (Fin.ofNat 32 (n / displayW)) :=
  Vector.getElem_ofFn h

/-- Settles O55: the column and the row come back as the remainder and the quotient by 64. -/
theorem displayExportIsRowMajor : Obligations.DisplayExportIsRowMajor := by
  intro s x y
  have hlt : y.val * 64 + x.val < 2048 := by omega
  have hcol : Fin.ofNat 64 (y.val * 64 + x.val) = x := Fin.ext (by simp only [Fin.ofNat]; omega)
  have hrow : Fin.ofNat 32 ((y.val * 64 + x.val) / displayW) = y :=
    Fin.ext (by simp only [Fin.ofNat, displayW]; omega)
  rw [List.getElem?_eq_getElem (by rwa [Vector.length_toList]), Vector.getElem_toList,
    s.dispOut_getElem hlt, hcol, hrow]

end Sys2Proof.Machine
end
